-- ==== Sys2Proof/Word.lean ====
section
/-! DEFINITION. The word types of the core: register values, instruction words, register indices. -/

namespace Sys2Proof

/-- The 32-bit pattern of an int32; its value is `BitVec.toInt` (spec/00_scope.md R6: `s32`). -/
abbrev Word := BitVec 32

/-- One instruction word (spec/30_encoding.md R60). -/
abbrev InstrWord := BitVec 64

/-- A register index: every 3-bit index names a register (spec/10_state.md R20, R23). -/
abbrev Reg := BitVec 3

/-- A 32-bit label ID, read as unsigned (spec/30_encoding.md R67). -/
abbrev LabelId := BitVec 32

/-- `INT_MIN` (spec/00_scope.md R6). -/
def intMin : Int := -2147483648

/-- `INT_MAX` (spec/00_scope.md R6). -/
def intMax : Int := 2147483647

end Sys2Proof
end

