-- ==== Sys2Proof/Syntax.lean ====
section
/-! DEFINITION. The seven instructions, one constructor per row of spec/opcode_table.json. -/

namespace Sys2Proof

/-- The source's "tagged variant over {Add, Sub, Mul, Div, Mov, Out, Jnz}" (spec/00_scope.md R9) with the operands
of spec/30_encoding.md R64 to R67. -/
inductive Instr where
  | add (ra rb : Reg)
  | sub (ra rb : Reg)
  | mul (ra rb : Reg)
  | div (ra rb : Reg)
  | mov (ra : Reg) (lit : Word)
  | out (ra : Reg)
  | jnz (ra : Reg) (lid : LabelId)
deriving DecidableEq, Repr

end Sys2Proof
end

