-- ==== Sys2Proof/Decode.lean ====
section
/-! DEFINITION. The decoder, total on every 64-bit word, and the encoder (spec/30_encoding.md R60 to R69, R81). -/

namespace Sys2Proof

/-- `OPC`, bits 63:61 (spec/30_encoding.md R61, R62). -/
def opcField (w : InstrWord) : BitVec 3 := w.extractLsb' 61 3

/-- `RA`, bits 60:58. -/
def raField (w : InstrWord) : Reg := w.extractLsb' 58 3

/-- `RB`, bits 57:55. -/
def rbField (w : InstrWord) : Reg := w.extractLsb' 55 3

/-- `RSV`, bits 54:32. -/
def rsvField (w : InstrWord) : BitVec 23 := w.extractLsb' 32 23

/-- `IMM`, bits 31:0. -/
def immField (w : InstrWord) : BitVec 32 := w.extractLsb' 0 32

/-- Why a word is ILLEGAL (spec/30_encoding.md R68, R69). The machine raises one exception for all of them. -/
inductive IllegalWord where
  /-- `OPC` = 7. -/
  | opcode7
  /-- `RSV` ≠ 0. -/
  | reservedBits
  /-- `IMM` ≠ 0 in shape R or O. -/
  | immediateBits
  /-- `RB` ≠ 0 in shape I, O or B. -/
  | secondRegister
deriving DecidableEq, Repr

/-- The instruction that an opcode selects once the must-be-zero fields hold zero: the `case` of
spec/30_encoding.md R68. -/
def instrOfFields (opc : BitVec 3) (ra rb : Reg) (imm : BitVec 32) : Except IllegalWord Instr :=
  match opc.toNat with
  | 0 => .ok (.add ra rb)
  | 1 => .ok (.sub ra rb)
  | 2 => .ok (.mul ra rb)
  | 3 => .ok (.div ra rb)
  | 4 => .ok (.mov ra imm)
  | 5 => .ok (.out ra)
  | 6 => .ok (.jnz ra imm)
  | _ => .error .opcode7

/-- `decode` of spec/30_encoding.md R68, its checks in the rule's order. -/
def decode (w : InstrWord) : Except IllegalWord Instr :=
  let opc := opcField w
  if opc = 7 then .error .opcode7
  else if rsvField w ≠ 0 then .error .reservedBits
  else if opc.toNat ≤ 3 ∧ immField w ≠ 0 then .error .immediateBits
  else if 4 ≤ opc.toNat ∧ rbField w ≠ 0 then .error .secondRegister
  else if opc = 5 ∧ immField w ≠ 0 then .error .immediateBits
  else instrOfFields opc (raField w) (rbField w) (immField w)

/-- The opcode number of an instruction (spec/30_encoding.md R63). -/
def Instr.opcode : Instr → BitVec 3
  | .add _ _ => 0
  | .sub _ _ => 1
  | .mul _ _ => 2
  | .div _ _ => 3
  | .mov _ _ => 4
  | .out _   => 5
  | .jnz _ _ => 6

/-- One word from its fields, `RSV` zero (spec/30_encoding.md R61). -/
def encodeFields (opc : BitVec 3) (ra rb : Reg) (imm : BitVec 32) : InstrWord :=
  opc ++ ra ++ rb ++ 0#23 ++ imm

/-- `enc` of spec/30_encoding.md R81. -/
def encode : Instr → InstrWord
  | .add ra rb  => encodeFields 0 ra rb 0
  | .sub ra rb  => encodeFields 1 ra rb 0
  | .mul ra rb  => encodeFields 2 ra rb 0
  | .div ra rb  => encodeFields 3 ra rb 0
  | .mov ra lit => encodeFields 4 ra 0 lit
  | .out ra     => encodeFields 5 ra 0 0
  | .jnz ra lid => encodeFields 6 ra 0 lid

/-- The instruction the decoder reads from the table's numbering of the bits: one 64-bit word, bit 0 least
significant; bits at and above `nbits` are zero. -/
def decodeTableWord (nbits w : Nat) : Option Instr :=
  if nbits ≤ 64 then (decode (BitVec.ofNat 64 (w % 2 ^ nbits))).toOption else none

end Sys2Proof
end

