-- ==== Sys2Proof/Config.lean ====
section
/-! DEFINITION. The parameters that spec/00_scope.md R4 marks "model argument", and the inputs the host loads. -/

namespace Sys2Proof

/-- The model arguments that no instruction reads. `N` and `NLAB` are the lengths of the loaded program's lists.
No field has a chosen value but `pcW`, whose default 32 is the spec's (spec/92_eei_decisions.md D7;
DESIGN CHOICE, safe, notes/assumptions/15.md). -/
structure Config where
  /-- `PC_W`, the width of a program address (spec/10_state.md R25). -/
  pcW : Nat := 32
  /-- `LINE_TERMINATOR`, OPEN: the sink's line ending (spec/41_move_output.md R142). -/
  lineTerminator : List Char
deriving DecidableEq, Repr

/-- An entry of the label table (spec/20_memory.md R46). -/
inductive LabelEntry where
  | bound (addr : Nat)
  | unbound
deriving DecidableEq, Repr

/-- The inputs of a run: `IMEM[0..N-1]` and `LT[0..NLAB-1]` (spec/10_state.md R30, spec/43_dispatch_step.md R188). -/
structure Program where
  imem : List InstrWord
  lt   : List LabelEntry
deriving DecidableEq, Repr

end Sys2Proof
end

