-- ==== Sys2Proof/Machine/State.lean ====
section
/-! DEFINITION. The state of the core, its power-on value, and the reasons a step could stop. -/

namespace Sys2Proof.Machine

/-- `STATUS` (spec/10_state.md R28). -/
inductive Status where
  /-- No run has started since power-on. -/
  | idle
  /-- A run is in progress. -/
  | running
  /-- The last run completed normally. -/
  | halted
  /-- The last run ended with an exception. -/
  | faulted
deriving DecidableEq, Repr

/-- `FR`, the fault record, every field of spec/10_state.md R29 at its width (`pc` a program address). -/
structure FaultRecord where
  cause : BitVec 3
  pc    : Nat
  word  : InstrWord
  opc   : BitVec 3
  ra    : Reg
  rb    : Reg
  valA  : Word
  valB  : Word
  dir   : BitVec 1
  bound : Word
  label : LabelId
deriving DecidableEq, Repr

/-- Every field 0: the value at power-on and after a start (spec/10_state.md R34, spec/70_reset_and_hazards.md R240). -/
def FaultRecord.zero : FaultRecord :=
  { cause := 0, pc := 0, word := 0, opc := 0, ra := 0, rb := 0, valA := 0, valB := 0, dir := 0, bound := 0, label := 0 }

/-- The core's program state `x`, `pc`, `STATUS`, `FR` (spec/10_state.md R33), the host's inputs `IMEM` and `LT` with
`N` and `NLAB` as their lengths (R30), and the sink's output stream, oldest value first (R31). `pc` is a natural number, as R25
allows (DESIGN CHOICE, safe, notes/assumptions/1.md). -/
structure State where
  regs   : Vector Word 8
  pc     : Nat
  status : Status
  fr     : FaultRecord
  imem   : List InstrWord
  lt     : List LabelEntry
  out    : List Word
deriving DecidableEq, Repr

/-- Reasons for a step to stop with no next state. There is none: every exception of the core is a next state with
`STATUS` = FAULTED (spec/60_exceptions.md R205), every address the core can form is fetched or ends the run
(spec/20_memory.md R45), and no read is of an absent or unwritten place (spec/10_state.md R22). Safe: nothing is left out. -/
inductive Fault where
deriving DecidableEq, Repr

/-- Reasons for having no meaning. -/
inductive Refusal where
  /-- Raised only by an arm of `exec` whose instruction has no meaning yet; no arm raises it now. Safe. -/
  | notModelled (mnemonic : String)
deriving DecidableEq, Repr

/-- The machine after power-on (spec/10_state.md R34). The inputs and the sink's stream are empty: nothing is loaded and
nothing is emitted yet (DESIGN CHOICE, unsafe, notes/assumptions/3.md and 4.md). -/
def State.reset : State :=
  { regs := Vector.replicate 8 0, pc := 0, status := .idle, fr := FaultRecord.zero, imem := [], lt := [], out := [] }

end Sys2Proof.Machine
end

