-- ==== Sys2Proof/Machine/Operands.lean ====
section
/-! DEFINITION. The values of spec/00_scope.md R6, over `Int` and bit patterns, and the quotient of spec/40_arithmetic.md R111. -/

namespace Sys2Proof.Machine

/-- `trunc32(v) = ((v + 2^31) mod 2^32) − 2^31`, the rule's formula as an integer. -/
def trunc32 (v : Int) : Int := (v + 2147483648) % 4294967296 - 2147483648

/-- `s32(b)`: the int32 a pattern stands for. -/
def s32 (b : Word) : Int := b.toInt

/-- `u32(v)`: the pattern of an integer, `v mod 2^32`. -/
def u32 (v : Int) : Word := BitVec.ofInt 32 v

/-- `sext_64(v)`: the int32 as a 64-bit signed value. -/
def sext64 (v : Word) : BitVec 64 := v.signExtend 64

/-- `sign(v)`: bit 31. -/
def signBit (v : Word) : Bool := v.getLsbD 31

/-- `tdiv(a, b) = sgn(a)·sgn(b)·floor(|a| / |b|)`, for `b ≠ 0`. -/
def tdiv (a b : Int) : Int := a.sign * b.sign * ((a.natAbs / b.natAbs : Nat) : Int)

/-- The value lies in [INT_MIN, INT_MAX]. -/
def fitsInt32 (v : Int) : Bool := decide (intMin ≤ v) && decide (v ≤ intMax)

end Sys2Proof.Machine
end

