-- ==== Sys2Proof/Machine/Flags.lean ====
section
/-! DEFINITION. The core has no status flags (spec/10_state.md R27). What stands in their place is the overflow checker,
a pure function (spec/40_arithmetic.md R100 to R105). -/

namespace Sys2Proof.Machine

/-- The checker's `op` input (spec/40_arithmetic.md R100). -/
inductive CheckOp where
  | add
  | sub
  | mul
deriving DecidableEq, Repr

/-- The direction of an overflow (spec/40_arithmetic.md R105). -/
inductive Direction where
  | over
  | under
deriving DecidableEq, Repr

/-- The checker's outputs; `dir` is `none` when `ovf` = 0, where R100 gives it no meaning
(DESIGN CHOICE, safe, notes/assumptions/8.md). -/
structure CheckOut where
  res : Word
  ovf : Bool
  dir : Option Direction
deriving DecidableEq, Repr

/-- `FR.DIR`: 0 = OVER, 1 = UNDER (spec/10_state.md R29). -/
def dirCode : Direction → BitVec 1
  | .over  => 0
  | .under => 1

/-- `bound(dir)`: INT_MAX if OVER, INT_MIN if UNDER (spec/40_arithmetic.md R105). -/
def dirBound : Direction → Int
  | .over  => intMax
  | .under => intMin

/-- `E`, the exact mathematical result (spec/40_arithmetic.md R104). -/
def exactResult (op : CheckOp) (a b : Word) : Int :=
  match op with
  | .add => s32 a + s32 b
  | .sub => s32 a - s32 b
  | .mul => s32 a * s32 b

/-- `res` and `ovf` of add (spec/40_arithmetic.md R101). -/
def addCheck (a b : Word) : Word × Bool :=
  let res := a + b
  (res, signBit a == signBit b && signBit res != signBit a)

/-- `res` and `ovf` of sub (spec/40_arithmetic.md R102). -/
def subCheck (a b : Word) : Word × Bool :=
  let res := a - b
  (res, ((a ^^^ b) &&& (a ^^^ res)).getLsbD 31)

/-- `res` and `ovf` of mul, the product computed at double width (spec/40_arithmetic.md R103). -/
def mulCheck (a b : Word) : Word × Bool :=
  let p64 := sext64 a * sext64 b
  let res := p64.setWidth 32
  (res, sext64 res != p64)

/-- `res` and `ovf` of each operation. -/
def resultAndOverflow (op : CheckOp) (a b : Word) : Word × Bool :=
  match op with
  | .add => addCheck a b
  | .sub => subCheck a b
  | .mul => mulCheck a b

/-- The direction, from the exact result (spec/40_arithmetic.md R105). -/
def directionOf (e : Int) : Direction := if e > intMax then .over else .under

/-- `check(op, a, b)`, the overflow checker (spec/40_arithmetic.md R100). -/
def check (op : CheckOp) (a b : Word) : CheckOut :=
  let r := resultAndOverflow op a b
  { res := r.1, ovf := r.2, dir := if r.2 then some (directionOf (exactResult op a b)) else none }

end Sys2Proof.Machine
end

