-- ==== Sys2Proof/WellFormed.lean ====
section
/-! DEFINITION. What is well formed: an instruction word by the opcode table, a loaded program by its bounds.
An `Instr` has no ill-formed value: its fields hold exactly what the encoding admits (spec/10_state.md R23,
spec/30_encoding.md R65). -/

namespace Sys2Proof

/-- A row of spec/opcode_table.json: a word is the row's when its bits under `mask` are `pattern`. -/
structure OpcodeRow where
  mnemonic : String
  pattern  : InstrWord
  mask     : InstrWord
deriving DecidableEq, Repr

/-- The seven rows of spec/opcode_table.json, copied from the table and not from the decoder. -/
def opcodeTable : List OpcodeRow :=
  [ ⟨"add", 0x0000000000000000, 0xE07FFFFFFFFFFFFF⟩,
    ⟨"sub", 0x2000000000000000, 0xE07FFFFFFFFFFFFF⟩,
    ⟨"mul", 0x4000000000000000, 0xE07FFFFFFFFFFFFF⟩,
    ⟨"div", 0x6000000000000000, 0xE07FFFFFFFFFFFFF⟩,
    ⟨"mov", 0x8000000000000000, 0xE3FFFFFF00000000⟩,
    ⟨"out", 0xA000000000000000, 0xE3FFFFFFFFFFFFFF⟩,
    ⟨"jnz", 0xC000000000000000, 0xE3FFFFFF00000000⟩ ]

/-- The word is `row`'s. -/
def OpcodeRow.covers (row : OpcodeRow) (w : InstrWord) : Bool := w &&& row.mask == row.pattern

/-- The table's mnemonic of an instruction. -/
def Instr.mnemonic : Instr → String
  | .add _ _ => "add"
  | .sub _ _ => "sub"
  | .mul _ _ => "mul"
  | .div _ _ => "div"
  | .mov _ _ => "mov"
  | .out _   => "out"
  | .jnz _ _ => "jnz"

/-- The word is legal by the opcode table: some row covers it. -/
def wordLegal (w : InstrWord) : Bool := opcodeTable.any (·.covers w)

/-- `N ≤ 2^PC_W − 1` (spec/10_state.md R26, spec/92_eei_decisions.md D7). -/
def programFits (c : Config) (imem : List InstrWord) : Bool := imem.length < 2 ^ c.pcW

/-- The entry's address has `PC_W` bits (spec/20_memory.md R46). -/
def entryFits (c : Config) : LabelEntry → Bool
  | .bound a => a < 2 ^ c.pcW
  | .unbound => true

/-- `NLAB ≤ 2^32` and every entry fits (spec/00_scope.md R4, spec/20_memory.md R46). -/
def labelsFit (c : Config) (lt : List LabelEntry) : Bool :=
  decide (lt.length ≤ 2 ^ 32) && lt.all (entryFits c)

/-- The program and label table are ones the spec admits. Illegal words are admitted: executing one is an
exception (spec/95_test_vectors.md P12b). -/
def Program.wellFormed (c : Config) (p : Program) : Bool := programFits c p.imem && labelsFit c p.lt

end Sys2Proof
end

