-- ==== Sys2Proof/Machine/Ops.lean ====
section
/-! DEFINITION. The named operations over the core's state: registers, fetch, label lookup, output, the commit of a step
and taking an exception. -/

namespace Sys2Proof.Machine

/-! Registers (spec/10_state.md R23). -/

/-- `x[i]`, a read port. -/
def readReg (s : State) (i : Reg) : Word := s.regs[i.toNat]'i.isLt

/-- `x[i] <- v`, the write port. -/
def writeReg (s : State) (i : Reg) (v : Word) : State := { s with regs := s.regs.set i.toNat v i.isLt }

/-- The clear input: every register 0. -/
def clearRegs (s : State) : State := { s with regs := Vector.replicate 8 0 }

/-! Instruction memory and label table (spec/20_memory.md R41, R46). -/

/-- `N`, the program's length. -/
def programLength (s : State) : Nat := s.imem.length

/-- `NLAB`, the number of label-table entries. -/
def labelCount (s : State) : Nat := s.lt.length

/-- `IMemRead(a)`, the whole word at `a`; `none` exactly where no word exists, at `N` and beyond. -/
def imemRead (s : State) (a : Nat) : Option InstrWord := s.imem[a]?

/-- The instruction memory as (address, word) pairs, addresses rising from 0 with no gap (spec/20_memory.md R40, R45). -/
def Memory.cells (imem : List InstrWord) : List (Nat × InstrWord) := imem.zipIdx.map (fun p => (p.2, p.1))

/-- The memory is one the spec admits, `N ≤ 2^PC_W − 1` (spec/10_state.md R26). A list of words indexed by position has
no second form: equal memories are equal data, and the words' unit is the spec's smallest
(DESIGN CHOICE, safe, notes/assumptions/2.md). -/
def Memory.wf (c : Config) (imem : List InstrWord) : Bool := programFits c imem

/-- The memory with `w` at `a`: in place when `a < N`, else the program is lengthened to reach `a`. -/
def placeWord (imem : List InstrWord) (a : Nat) (w : InstrWord) : List InstrWord :=
  if a < imem.length then imem.set a w else imem ++ List.replicate (a - imem.length) 0 ++ [w]

/-- `LabelLookup(id)`: `LT[id]` for `id < NLAB`, Unbound otherwise. -/
def labelLookup (s : State) (id : LabelId) : LabelEntry := (s.lt[id.toNat]?).getD .unbound

/-! Output port (spec/20_memory.md R53). -/

/-- `OutEmit(v)`: appends to the sink's stream; always completes (R54). -/
def outEmit (s : State) (v : Word) : State := { s with out := s.out ++ [v] }

/-! The end of a step (spec/43_dispatch_step.md R185). -/

/-- The two values of the next-pc selector (spec/42_control.md R160). -/
inductive NextPc where
  | advance
  | target (addr : Nat)
deriving DecidableEq, Repr

/-- The program-counter unit: the `pc` it sets (spec/42_control.md R160). -/
def nextPc (pc : Nat) : NextPc → Nat
  | .advance  => pc + 1
  | .target t => t

/-- The exceptions with the record each carries (spec/60_exceptions.md R200 to R204). -/
inductive Exc where
  | arithmeticOverflow (ra rb : Reg) (valA valB : Word) (dir : Direction)
  | divisionByZero (rb : Reg)
  | unknownLabel (label : LabelId)
  | illegalInstruction
deriving DecidableEq, Repr

/-- What an instruction's execution returns: `(next, wb, emit)`, or a raised exception. -/
inductive Result where
  | done (next : NextPc) (wb : Option (Reg × Word)) (emit : Option Word)
  | raised (e : Exc)
deriving DecidableEq, Repr

/-- The commit: at most one register write, at most one emit, and the pc. -/
def commit (next : NextPc) (wb : Option (Reg × Word)) (emit : Option Word) (s : State) : State :=
  let s1 := match wb with
    | some (i, v) => writeReg s i v
    | none => s
  let s2 := match emit with
    | some v => outEmit s1 v
    | none => s1
  { s2 with pc := nextPc s.pc next }

/-! Taking an exception (spec/60_exceptions.md R205). There is no return from one (R208). -/

/-- `code(E)` (spec/60_exceptions.md R200). -/
def causeCode : Exc → BitVec 3
  | .arithmeticOverflow .. => 1
  | .divisionByZero _      => 2
  | .unknownLabel _        => 3
  | .illegalInstruction    => 4

/-- The record written by `raise E(info)`: the four common fields, the exception's own fields, all others 0
(spec/60_exceptions.md R205, spec/10_state.md R29). -/
def faultRecord (pc : Nat) (w : InstrWord) (e : Exc) : FaultRecord :=
  let base := { FaultRecord.zero with cause := causeCode e, pc := pc, word := w, opc := opcField w }
  match e with
  | .arithmeticOverflow ra rb a b d =>
      { base with ra := ra, rb := rb, valA := a, valB := b, dir := dirCode d, bound := u32 (dirBound d) }
  | .divisionByZero rb   => { base with rb := rb }
  | .unknownLabel l      => { base with label := l }
  | .illegalInstruction  => base

/-- Trap entry: `FR` written, `STATUS` FAULTED, nothing of the instruction committed, `pc` left at it. -/
def raiseException (w : InstrWord) (e : Exc) (s : State) : State :=
  { s with fr := faultRecord s.pc w e, status := .faulted }

/-- The state after the instruction whose word is `w` and whose execution returned `r`: its commit, or trap entry. -/
def finish (w : InstrWord) (r : Result) (s : State) : State :=
  match r with
  | .done next wb emit => commit next wb emit s
  | .raised e          => raiseException w e s

/-- The end of an instruction. Its word is the legal word that decodes to it, and there is one only
(spec/30_encoding.md R81; DEDUCED, safe, notes/assumptions/7.md). -/
def complete (i : Instr) (r : Result) (s : State) : Host.Outcome State Fault Refusal :=
  .next (finish (encode i) r s)

/-- The end check's effect: `STATUS <- HALTED` and nothing else (spec/43_dispatch_step.md R181). -/
def haltRun (s : State) : State := { s with status := .halted }

end Sys2Proof.Machine
end

