-- ==== Sys2Proof/Machine/Arithmetic.lean ====
section
/-! DEFINITION. add, sub, mul, div (spec/40_arithmetic.md R106 to R113). -/

namespace Sys2Proof.Machine

/-- add, sub and mul behind the checker: write `res` to `ra`, or raise ArithmeticOverflow (R106, R107, R108).
The checker gives a direction exactly when it reports an overflow. -/
def checkedResult (op : CheckOp) (ra rb : Reg) (s : State) : Result :=
  let a := readReg s ra
  let b := readReg s rb
  let c := check op a b
  match c.dir with
  | some d => .raised (.arithmeticOverflow ra rb a b d)
  | none   => .done .advance (some (ra, c.res)) none

/-- div: the divisor test, the INT_MIN / −1 test, then the quotient (R109, R113). -/
def divResult (ra rb : Reg) (s : State) : Result :=
  let a := readReg s ra
  let b := readReg s rb
  if s32 b = 0 then .raised (.divisionByZero rb)
  else if s32 a = intMin ∧ s32 b = -1 then .raised (.arithmeticOverflow ra rb a b .over)
  else .done .advance (some (ra, u32 (tdiv (s32 a) (s32 b)))) none

/-- ADD (R106). -/
def execAdd (ra rb : Reg) (s : State) : Host.Outcome State Fault Refusal :=
  complete (.add ra rb) (checkedResult .add ra rb s) s

/-- SUB (R107). -/
def execSub (ra rb : Reg) (s : State) : Host.Outcome State Fault Refusal :=
  complete (.sub ra rb) (checkedResult .sub ra rb s) s

/-- MUL (R108). -/
def execMul (ra rb : Reg) (s : State) : Host.Outcome State Fault Refusal :=
  complete (.mul ra rb) (checkedResult .mul ra rb s) s

/-- DIV (R109). -/
def execDiv (ra rb : Reg) (s : State) : Host.Outcome State Fault Refusal :=
  complete (.div ra rb) (divResult ra rb s) s

end Sys2Proof.Machine
end

