-- ==== Sys2Proof/Machine/Control.lean ====
section
/-! DEFINITION. jnz (spec/42_control.md R161 to R163). -/

namespace Sys2Proof.Machine

/-- The label is resolved only when the jump is taken; a target is not checked (R161, R162, R163). -/
def jnzResult (ra : Reg) (lid : LabelId) (s : State) : Result :=
  if s32 (readReg s ra) = 0 then .done .advance none none
  else match labelLookup s lid with
    | .bound t => .done (.target t) none none
    | .unbound => .raised (.unknownLabel lid)

/-- JNZ (R161). -/
def execJnz (ra : Reg) (lid : LabelId) (s : State) : Host.Outcome State Fault Refusal :=
  complete (.jnz ra lid) (jnzResult ra lid s) s

end Sys2Proof.Machine
end

