-- ==== Sys2Proof/Machine/MoveOutput.lean ====
section
/-! DEFINITION. mov and out (spec/41_move_output.md R140, R141). -/

namespace Sys2Proof.Machine

/-- MOV: `x[ra] <- lit` (R140). -/
def execMov (ra : Reg) (lit : Word) (s : State) : Host.Outcome State Fault Refusal :=
  complete (.mov ra lit) (.done .advance (some (ra, lit)) none) s

/-- OUT: `OutEmit(x[ra])` (R141). -/
def execOut (ra : Reg) (s : State) : Host.Outcome State Fault Refusal :=
  complete (.out ra) (.done .advance none (some (readReg s ra))) s

end Sys2Proof.Machine
end

