-- ==== Sys2Proof/Machine/Dispatch.lean ====
section
/-! DEFINITION. The dispatch mux (spec/43_dispatch_step.md R184): one arm per instruction. -/

namespace Sys2Proof.Machine

def exec (i : Instr) (s : State) : Host.Outcome State Fault Refusal :=
  match i with
  | .add ra rb => Sys2Proof.Machine.execAdd ra rb s
  | .sub ra rb => Sys2Proof.Machine.execSub ra rb s
  | .mul ra rb => Sys2Proof.Machine.execMul ra rb s
  | .div ra rb => Sys2Proof.Machine.execDiv ra rb s
  | .mov ra lit => Sys2Proof.Machine.execMov ra lit s
  | .out ra => Sys2Proof.Machine.execOut ra s
  | .jnz ra lid => Sys2Proof.Machine.execJnz ra lid s

end Sys2Proof.Machine
end

