-- ==== Sys2Proof/Machine/Step.lean ====
section
/-! DEFINITION. One step of the core (spec/43_dispatch_step.md R180 to R187). -/

namespace Sys2Proof.Machine

/-- The step: nothing while no run is in progress (R180; the state is kept: DESIGN CHOICE, safe,
notes/assumptions/5.md); the end check (R181);
fetch (R182); decode, an illegal word raising IllegalInstruction (R183); then the instruction. -/
def step (s : State) : Host.Outcome State Fault Refusal :=
  match s.status with
  | .running =>
    if programLength s ≤ s.pc then .next (haltRun s)
    else match imemRead s s.pc with
      | none => .next (haltRun s)
      | some w => match decode w with
        | .error _ => .next (raiseException w .illegalInstruction s)
        | .ok i => exec i s
  | .idle => .next s
  | .halted => .next s
  | .faulted => .next s

/-- The state in which the next step fetches `w`: the host has loaded it at `pc` and a run is in progress
(DESIGN CHOICE, safe, notes/assumptions/6.md). `nbits` is 64 for every row of the table. -/
def State.withFetchWord (s : State) (nbits w : Nat) : State :=
  { s with imem := placeWord s.imem s.pc (BitVec.ofNat 64 (w % 2 ^ nbits)), status := .running }

end Sys2Proof.Machine
end

