-- ==== Sys2Proof/Machine/Datapath.lean ====
section
/-! DEFINITION. The hardware form of one step: the decoder's outputs (spec/30_encoding.md R68), the register bank's ports
(spec/10_state.md R23), the branch unit (spec/42_control.md R166) and the dispatch mux (spec/43_dispatch_step.md R184).
The machine's step is `Machine.step`; that this form computes the same is a statement. -/

namespace Sys2Proof.Machine

/-- Wires that the rules leave undriven: the label-table address of an Unbound entry, and the register write port's
address and data when `we` = 0. A free input: nothing fixes it (DESIGN CHOICE, safe, notes/assumptions/14.md). -/
structure Floating where
  ltAddr : Nat
  wa     : Reg
  wdata  : Word
deriving DecidableEq, Repr

/-- The decoder's hardware outputs. -/
structure DecoderPorts where
  illegal : Bool
  op      : BitVec 7
  ra      : Reg
  rb      : Reg
  imm     : BitVec 32
deriving DecidableEq, Repr

/-- `illegal` from the field tests of spec/30_encoding.md R61 and R69: opcode bit 2 separates shape R from the others. -/
def illegalWire (w : InstrWord) : Bool :=
  opcField w == 7 || rsvField w != 0
    || (!(opcField w).getLsbD 2 && immField w != 0)
    || ((opcField w).getLsbD 2 && rbField w != 0)
    || (opcField w == 5 && immField w != 0)

/-- The decoder: one-hot `op` in opcode order, no bit set for an illegal word. -/
def decoderPorts (w : InstrWord) : DecoderPorts :=
  { illegal := illegalWire w
    op := if illegalWire w then 0 else 1#7 <<< (opcField w).toNat
    ra := raField w
    rb := rbField w
    imm := immField w }

/-- The label-table port: `lt_bound` and `lt_addr`. -/
def labelPort (fl : Floating) (s : State) (lid : LabelId) : Bool × Nat :=
  match labelLookup s lid with
  | .bound a => (true, a)
  | .unbound => (false, fl.ltAddr)

/-- The branch unit's outputs. -/
structure BranchPorts where
  take         : Bool
  selTarget    : Bool
  target       : Nat
  unknownLabel : Bool
deriving DecidableEq, Repr

/-- The conditional branch unit (spec/42_control.md R166). -/
def branchUnit (isJnz : Bool) (rdataA : Word) (ltBound : Bool) (ltAddr : Nat) : BranchPorts :=
  let take := isJnz && rdataA != 0
  { take := take, selTarget := take && ltBound, target := ltAddr, unknownLabel := take && !ltBound }

/-- The mux's outputs: the register write port, the emit, the next-pc selector, and the exception raised, if any. -/
structure MuxPorts where
  we        : Bool
  wa        : Reg
  wdata     : Word
  emit      : Option Word
  selTarget : Bool
  target    : Nat
  raised    : Option Exc
deriving DecidableEq, Repr

/-- The mux with nothing selected. -/
def muxIdle (fl : Floating) : MuxPorts :=
  { we := false, wa := fl.wa, wdata := fl.wdata, emit := none, selTarget := false, target := fl.ltAddr, raised := none }

/-- The overflow checker behind the mux. -/
def checkerUnit (fl : Floating) (op : CheckOp) (ra rb : Reg) (a b : Word) : MuxPorts :=
  let c := check op a b
  match c.dir with
  | some d => { muxIdle fl with raised := some (.arithmeticOverflow ra rb a b d) }
  | none   => { muxIdle fl with we := true, wa := ra, wdata := c.res }

/-- The divider behind the mux: truncating division of the patterns. -/
def dividerUnit (fl : Floating) (ra rb : Reg) (a b : Word) : MuxPorts :=
  if b = 0 then { muxIdle fl with raised := some (.divisionByZero rb) }
  else if a = BitVec.intMin 32 ∧ b = BitVec.allOnes 32 then
    { muxIdle fl with raised := some (.arithmeticOverflow ra rb a b .over) }
  else { muxIdle fl with we := true, wa := ra, wdata := a.sdiv b }

/-- The dispatch mux: the one-hot `op` selects one functional unit (spec/43_dispatch_step.md R184). -/
def dispatchMux (fl : Floating) (s : State) (d : DecoderPorts) : MuxPorts :=
  let a := readReg s d.ra
  let b := readReg s d.rb
  if d.illegal then { muxIdle fl with raised := some .illegalInstruction }
  else if d.op.getLsbD 0 then checkerUnit fl .add d.ra d.rb a b
  else if d.op.getLsbD 1 then checkerUnit fl .sub d.ra d.rb a b
  else if d.op.getLsbD 2 then checkerUnit fl .mul d.ra d.rb a b
  else if d.op.getLsbD 3 then dividerUnit fl d.ra d.rb a b
  else if d.op.getLsbD 4 then { muxIdle fl with we := true, wa := d.ra, wdata := d.imm }
  else if d.op.getLsbD 5 then { muxIdle fl with emit := some a }
  else
    let lp := labelPort fl s d.imm
    let br := branchUnit (d.op.getLsbD 6) a lp.1 lp.2
    { muxIdle fl with
      selTarget := br.selTarget
      target := br.target
      raised := if br.unknownLabel then some (.unknownLabel d.imm) else none }

/-- One step of the datapath while a run is in progress: end check, fetch, decode, mux, then trap entry or the commit of
the mux's outputs. -/
def datapathStep (fl : Floating) (s : State) : State :=
  if programLength s ≤ s.pc then haltRun s
  else
    let w := (imemRead s s.pc).getD 0
    let m := dispatchMux fl s (decoderPorts w)
    match m.raised with
    | some e => raiseException w e s
    | none =>
      let s1 := if m.we then writeReg s m.wa m.wdata else s
      let s2 := match m.emit with
        | some v => outEmit s1 v
        | none => s1
      { s2 with pc := if m.selTarget then m.target else s.pc + 1 }

end Sys2Proof.Machine
end

