-- ==== Sys2Proof/Machine/Sink.lean ====
section
/-! DEFINITION. The text at the sink (spec/41_move_output.md R142). It is outside the core: no instruction reads it. -/

namespace Sys2Proof.Machine

/-- The ASCII character of a decimal digit. -/
def digitChar (d : Nat) : Char := Char.ofNat (48 + d)

/-- The decimal digits of `n`, most significant first and without leading zeros ("0" for zero), for `n < 10^fuel`. -/
def decimalDigits : (fuel n : Nat) → List Char
  | 0, _ => []
  | fuel + 1, n => if n < 10 then [digitChar n] else decimalDigits fuel (n / 10) ++ [digitChar (n % 10)]

/-- A leading `-` for a negative value, then the magnitude; an int32's magnitude has at most ten digits. -/
def decimalText (v : Int) : List Char :=
  if v < 0 then '-' :: decimalDigits 10 v.natAbs else decimalDigits 10 v.natAbs

/-- One emitted value as one line; the line's end is the model argument `LINE_TERMINATOR`. -/
def sinkLine (c : Config) (v : Word) : List Char := decimalText (s32 v) ++ c.lineTerminator

/-- The sink's text of an output stream. -/
def sinkText (c : Config) (out : List Word) : List Char := out.flatMap (sinkLine c)

end Sys2Proof.Machine
end

