-- ==== Sys2Proof/Machine/Assembler.lean ====
section
/-! DEFINITION. The assembler syntax of the core and the building of the label table (spec/30_encoding.md R72 to R81).
The translator runs before any run, outside the core (spec/00_scope.md R3); it is modelled because "a model needs that
syntax to read programs". A source file is a list of lines, a line a list of characters. -/

namespace Sys2Proof.Machine

/-- A token, and a label name. -/
abbrev Token := List Char

/-! Tokens (spec/30_encoding.md R72). -/

/-- White space between tokens: space and the control characters 9 to 13 (DESIGN CHOICE, unsafe, notes/assumptions/10.md). -/
def isBlank (ch : Char) : Bool := ch == ' ' || (decide (9 ≤ ch.toNat) && decide (ch.toNat ≤ 13))

/-- The tokens of a line, `cur` holding the current token's characters so far. -/
def tokensFrom (cur : Token) : List Char → List Token
  | [] => if cur.isEmpty then [] else [cur]
  | ch :: rest =>
    if isBlank ch then
      if cur.isEmpty then tokensFrom [] rest else cur :: tokensFrom [] rest
    else tokensFrom (cur ++ [ch]) rest

/-- The whitespace-delimited tokens of a line. -/
def tokens (line : List Char) : List Token := tokensFrom [] line

/-- The label name of a label token: it ends in `:`, the rest is non-empty and holds no other `:`
(spec/92_eei_decisions.md D25). -/
def labelName (t : Token) : Option Token :=
  if t.getLast? = some ':' ∧ t.dropLast ≠ [] ∧ ':' ∉ t.dropLast then some t.dropLast else none

/-- The line without its label token, and the label's name. -/
def splitLabel : List Token → Option Token × List Token
  | [] => (none, [])
  | t :: rest =>
    match labelName t with
    | some name => (some name, rest)
    | none => (none, t :: rest)

/-! Operand tokens. -/

/-- The eight register names in index order (spec/10_state.md R20). Names 3 to 7 are from general knowledge
(PRESUMED, unsafe for source text, spec/93_implementation_defined.md G1, notes/assumptions/9.md). -/
def registerNames : List Token :=
  [ ['E', 'A', 'X'],
    ['E', 'B', 'X'],
    ['E', 'C', 'X'],
    ['E', 'D', 'X'],
    ['E', 'S', 'P'],
    ['E', 'B', 'P'],
    ['E', 'S', 'I'],
    ['E', 'D', 'I'] ]

/-- The canonical name of a register. -/
def registerName (r : Reg) : Token := registerNames.getD r.toNat []

/-- `idx`: the register that a token names exactly, case-sensitively (spec/30_encoding.md R75). -/
def parseRegister (t : Token) : Option Reg :=
  if t ∈ registerNames then some (BitVec.ofNat 3 (registerNames.idxOf t)) else none

/-- The value of an ASCII decimal digit. -/
def digitValue (ch : Char) : Option Nat :=
  if 48 ≤ ch.toNat ∧ ch.toNat ≤ 57 then some (ch.toNat - 48) else none

/-- The value of a run of digits, after a value already read. -/
def digitsFrom (acc : Nat) : List Char → Option Nat
  | [] => some acc
  | ch :: rest =>
    match digitValue ch with
    | some d => digitsFrom (acc * 10 + d) rest
    | none => none

/-- One or more ASCII decimal digits. -/
def parseDigits : List Char → Option Nat
  | [] => none
  | ch :: rest => digitsFrom 0 (ch :: rest)

/-- An optional `+` or `-` and one or more digits (spec/30_encoding.md R76). -/
def parseInteger : Token → Option Int
  | [] => none
  | ch :: rest =>
    if ch = '+' then (parseDigits rest).map Int.ofNat
    else if ch = '-' then (parseDigits rest).map (fun n => -Int.ofNat n)
    else (parseDigits (ch :: rest)).map Int.ofNat

/-- A `mov` literal: an integer token whose value is an int32 (spec/30_encoding.md R76). -/
def parseLiteral (t : Token) : Option Word :=
  match parseInteger t with
  | some v => if fitsInt32 v then some (u32 v) else none
  | none => none

/-! Instructions of a line. -/

/-- An instruction as the text gives it: jnz names its label (spec/30_encoding.md R77). -/
inductive AsmInstr where
  | plain (i : Instr)
  | jnz (ra : Reg) (name : Token)
deriving DecidableEq, Repr

/-- The structural failures (spec/30_encoding.md R79). -/
inductive TranslateError where
  | unknownOpcode (t : Token)
  | arityMismatch (opcode : Token) (expected : Nat)
  | invalidRegister (t : Token) (permitted : List Token)
  | invalidInteger (t : Token)
deriving DecidableEq, Repr

/-- The mnemonics (spec/30_encoding.md R73). -/
inductive Mnemonic where
  | add
  | sub
  | mul
  | div
  | mov
  | out
  | jnz
deriving DecidableEq, Repr

/-- The mnemonic's token, lower case. -/
def mnemonicToken : Mnemonic → Token
  | .add => ['a', 'd', 'd']
  | .sub => ['s', 'u', 'b']
  | .mul => ['m', 'u', 'l']
  | .div => ['d', 'i', 'v']
  | .mov => ['m', 'o', 'v']
  | .out => ['o', 'u', 't']
  | .jnz => ['j', 'n', 'z']

/-- All mnemonics, in the opcodes' order. -/
def mnemonics : List Mnemonic := [.add, .sub, .mul, .div, .mov, .out, .jnz]

/-- The mnemonic that a token spells exactly, case-sensitively (spec/92_eei_decisions.md D17). -/
def parseMnemonic (t : Token) : Option Mnemonic := mnemonics.find? (fun m => mnemonicToken m == t)

/-- "`out` takes 1, all others take 2" (spec/30_encoding.md R73). -/
def operandCount : Mnemonic → Nat
  | .out => 1
  | .add | .sub | .mul | .div | .mov | .jnz => 2

/-- A register operand, or InvalidRegister with the permitted set. -/
def registerOperand (t : Token) : Except TranslateError Reg :=
  match parseRegister t with
  | some r => .ok r
  | none => .error (.invalidRegister t registerNames)

/-- A literal operand, or InvalidInteger. -/
def literalOperand (t : Token) : Except TranslateError Word :=
  match parseLiteral t with
  | some v => .ok v
  | none => .error (.invalidInteger t)

/-- Two register operands, left to right. -/
def registerPair (make : Reg → Reg → Instr) (t1 t2 : Token) : Except TranslateError AsmInstr :=
  match registerOperand t1 with
  | .error e => .error e
  | .ok r1 =>
    match registerOperand t2 with
    | .error e => .error e
    | .ok r2 => .ok (.plain (make r1 r2))

/-- The instruction with two operands (spec/30_encoding.md R74); `out` is not one. -/
def twoOperands (m : Mnemonic) (t1 t2 : Token) : Except TranslateError AsmInstr :=
  match m with
  | .add => registerPair .add t1 t2
  | .sub => registerPair .sub t1 t2
  | .mul => registerPair .mul t1 t2
  | .div => registerPair .div t1 t2
  | .mov =>
    match registerOperand t1 with
    | .error e => .error e
    | .ok r =>
      match literalOperand t2 with
      | .error e => .error e
      | .ok v => .ok (.plain (.mov r v))
  | .jnz =>
    match registerOperand t1 with
    | .error e => .error e
    | .ok r => .ok (.jnz r t2)
  | .out => .error (.arityMismatch (mnemonicToken .out) 1)

/-- The instruction with one operand; only `out` has one. -/
def oneOperand (m : Mnemonic) (t1 : Token) : Except TranslateError AsmInstr :=
  match m with
  | .out =>
    match registerOperand t1 with
    | .error e => .error e
    | .ok r => .ok (.plain (.out r))
  | .add | .sub | .mul | .div | .mov | .jnz => .error (.arityMismatch (mnemonicToken m) 2)

/-- The instruction of the tokens after the label: opcode, count, then operands left to right (spec/30_encoding.md R79). -/
def parseInstr (opcode : Token) (operands : List Token) : Except TranslateError AsmInstr :=
  match parseMnemonic opcode with
  | none => .error (.unknownOpcode opcode)
  | some m =>
    match operands with
    | [t1] => oneOperand m t1
    | [t1, t2] => twoOperands m t1 t2
    | _ => .error (.arityMismatch opcode (operandCount m))

/-- The instruction of the tokens after the label: none on a line that yields no opcode (spec/30_encoding.md R72). -/
def parseBody : List Token → Except TranslateError (Option AsmInstr)
  | [] => .ok none
  | opcode :: operands =>
    match parseInstr opcode operands with
    | .error e => .error e
    | .ok a => .ok (some a)

/-- One line: its label, if any, and its instruction, if any (spec/30_encoding.md R72). -/
def parseLine (line : List Char) : Option Token × Except TranslateError (Option AsmInstr) :=
  let parts := splitLabel (tokens line)
  (parts.1, parseBody parts.2)

/-! Building the program and the label table (spec/30_encoding.md R78). -/

/-- What a translation has built: the program, the names in label-ID order with their entries, the duplicate
definitions reported (line number from 1, name), and the structural failure that ended it, if any. -/
structure Translation where
  program    : List Instr
  names      : List (Token × LabelEntry)
  duplicates : List (Nat × Token)
  failure    : Option (Nat × TranslateError)
deriving DecidableEq, Repr

/-- A fresh translation: the label table is reset before each pass (spec/70_reset_and_hazards.md R243). -/
def emptyTranslation : Translation := { program := [], names := [], duplicates := [], failure := none }

/-- The position of a name, its label ID. -/
def nameIndex (names : List (Token × LabelEntry)) (name : Token) : Nat := (names.map Prod.fst).idxOf name

/-- The names with `name` among them: a new name takes the next free label ID, Unbound. -/
def internName (names : List (Token × LabelEntry)) (name : Token) : List (Token × LabelEntry) :=
  if name ∈ names.map Prod.fst then names else names ++ [(name, .unbound)]

/-- Whether the name is already registered at an address. -/
def isBound (names : List (Token × LabelEntry)) (name : Token) : Bool :=
  names.any (fun p => p.1 == name && p.2 != .unbound)

/-- A label token's name takes its ID where the line is read, whether the line yields an instruction or not: R78 numbers
"each distinct label name, whether it appears as a definition or as a `jnz` operand" in order of first appearance. -/
def mentionLabel (label : Option Token) (t : Translation) : Translation :=
  match label with
  | none => t
  | some name => { t with names := internName t.names name }

/-- The name's entry set to `addr`; the name has its ID already. -/
def bindName (names : List (Token × LabelEntry)) (name : Token) (addr : Nat) : List (Token × LabelEntry) :=
  names.map (fun p => if p.1 = name then (p.1, .bound addr) else p)

/-- Registering a built instruction's label against the current program length; a duplicate keeps the first binding and is
reported. A label on a line without an instruction is never registered (spec/30_encoding.md R72). -/
def registerLabel (lineNo : Nat) (label : Option Token) (t : Translation) : Translation :=
  match label with
  | none => t
  | some name =>
    if isBound t.names name then { t with duplicates := t.duplicates ++ [(lineNo, name)] }
    else { t with names := bindName t.names name t.program.length }

/-- Appending the line's instruction, a jnz's label name replaced by its ID. -/
def appendInstr (a : AsmInstr) (t : Translation) : Translation :=
  match a with
  | .plain i => { t with program := t.program ++ [i] }
  | .jnz ra name =>
    let names := internName t.names name
    { t with names := names, program := t.program ++ [.jnz ra (BitVec.ofNat 32 (nameIndex names name))] }

/-- The lines in order; a structural failure ends the translation at once (spec/30_encoding.md R79). A label on the failing
line has its ID, and no label operand of that line has (DESIGN CHOICE, safe, notes/assumptions/11.md). -/
def translateFrom (lineNo : Nat) (t : Translation) : List (List Char) → Translation
  | [] => t
  | line :: rest =>
    let label := (parseLine line).1
    let seen := mentionLabel label t
    match (parseLine line).2 with
    | .error e => { seen with failure := some (lineNo, e) }
    | .ok none => translateFrom (lineNo + 1) seen rest
    | .ok (some a) => translateFrom (lineNo + 1) (appendInstr a (registerLabel lineNo label seen)) rest

/-- The translation of a source file, its lines numbered from 1 (DESIGN CHOICE, safe, notes/assumptions/12.md). -/
def translate (lines : List (List Char)) : Translation := translateFrom 1 emptyTranslation lines

/-- The image the host loads: the encoded program and `LT` (spec/30_encoding.md R78, R81). -/
def translationImage (t : Translation) : Program :=
  { imem := t.program.map encode, lt := t.names.map Prod.snd }

/-! Canonical text (spec/30_encoding.md R80). -/

/-- The opcode and operand tokens of an instruction. R74 and R80 write a jnz's label by name; a jnz known only by its label ID
shows the ID in decimal (DESIGN CHOICE, unsafe for that text only, notes/assumptions/17.md). -/
def asmTokens : AsmInstr → List Token
  | .plain (.add ra rb)  => [mnemonicToken .add, registerName ra, registerName rb]
  | .plain (.sub ra rb)  => [mnemonicToken .sub, registerName ra, registerName rb]
  | .plain (.mul ra rb)  => [mnemonicToken .mul, registerName ra, registerName rb]
  | .plain (.div ra rb)  => [mnemonicToken .div, registerName ra, registerName rb]
  | .plain (.mov ra lit) => [mnemonicToken .mov, registerName ra, decimalText (s32 lit)]
  | .plain (.out ra)     => [mnemonicToken .out, registerName ra]
  | .plain (.jnz ra lid) => [mnemonicToken .jnz, registerName ra, decimalDigits 10 lid.toNat]
  | .jnz ra name         => [mnemonicToken .jnz, registerName ra, name]

/-- `[label: ]opcode operand…` with single spaces. -/
def canonicalText (label : Option Token) (a : AsmInstr) : List Char :=
  let body := List.intercalate [' '] (asmTokens a)
  match label with
  | none => body
  | some name => name ++ [':', ' '] ++ body

end Sys2Proof.Machine
end

