-- ==== Sys2Proof/Machine/HostPort.lean ====
section
/-! DEFINITION. What the host can do to the core between runs (spec/43_dispatch_step.md R188,
spec/70_reset_and_hazards.md R240 to R244). While `STATUS` = RUNNING it has no move (spec/20_memory.md R51, R241). -/

namespace Sys2Proof.Machine

/-- `STATUS[1:0]` as the host reads it (spec/10_state.md R28). -/
def statusCode : Status → BitVec 2
  | .idle    => 0
  | .running => 1
  | .halted  => 2
  | .faulted => 3

/-- What the host reads (spec/10_state.md R35). -/
structure HostView where
  status : BitVec 2
  fr     : FaultRecord
  regs   : Vector Word 8
  pc     : Nat
deriving DecidableEq, Repr

/-- The host's read: `none` while a run is in progress (spec/10_state.md R35). -/
def hostRead (s : State) : Option HostView :=
  if s.status = .running then none
  else some { status := statusCode s.status, fr := s.fr, regs := s.regs, pc := s.pc }

/-- `start()` (spec/70_reset_and_hazards.md R240). The output stream is the sink's and is kept (spec/92_eei_decisions.md D27). -/
def startRun (s : State) : State := { clearRegs s with pc := 0, fr := FaultRecord.zero, status := .running }

/-- The core's start command: accepted in IDLE, HALTED and FAULTED (spec/70_reset_and_hazards.md R240), absent in RUNNING
(R241). -/
def startCommand (s : State) : Option State :=
  if s.status = .running then none else some (startRun s)

/-- The core and what its host keeps beside it: whether a translation has ended in a structural failure and none has
succeeded since. "The core cannot detect it" (spec/70_reset_and_hazards.md R243), so it stands outside `State` and no step
reads it (notes/assumptions/13.md). -/
structure System where
  core              : State
  translationFailed : Bool
deriving DecidableEq, Repr

/-- Power-on: no translation has failed yet. -/
def System.reset : System := { core := State.reset, translationFailed := false }

/-- The host's moves, functions beside the step (DESIGN CHOICE, unsafe if a host breaks its duties, notes/assumptions/13.md). -/
inductive HostMove where
  /-- Load `IMEM[0..N-1]` and `N`. -/
  | loadProgram (imem : List InstrWord)
  /-- Load `LT[0..NLAB-1]`. -/
  | loadLabels (lt : List LabelEntry)
  /-- Translate a source file and load what the translation built. -/
  | loadSource (lines : List (List Char))
  /-- Start a run. -/
  | start
deriving DecidableEq, Repr

/-- Load a whole image, if the spec admits it (spec/93_implementation_defined.md U14). -/
def loadImage (c : Config) (p : Program) (s : State) : Option State :=
  if p.wellFormed c then some { s with imem := p.imem, lt := p.lt } else none

/-- The load of a translation. A structural failure leaves program and table "partially populated" (spec/30_encoding.md R79)
and is remembered; a translation without one is a fresh program (spec/70_reset_and_hazards.md R243). -/
def loadTranslation (c : Config) (t : Translation) (y : System) : Option System :=
  match t.failure with
  | some _ => some { core := (loadImage c (translationImage t) y.core).getD y.core, translationFailed := true }
  | none => (loadImage c (translationImage t) y.core).map (fun s => { core := s, translationFailed := false })

/-- The system after a host move, `none` where the host has no such move: any move during a run, a start after a structural
failure (R243), a load that the spec does not admit. -/
def hostMove (c : Config) (m : HostMove) (y : System) : Option System :=
  if y.core.status = .running then none
  else match m with
    | .loadProgram imem => if programFits c imem then some { y with core := { y.core with imem := imem } } else none
    | .loadLabels lt => if labelsFit c lt then some { y with core := { y.core with lt := lt } } else none
    | .loadSource lines => loadTranslation c (translate lines) y
    | .start => if y.translationFailed then none else (startCommand y.core).map (fun s => { y with core := s })

end Sys2Proof.Machine
end

