-- ==== Sys2Proof/Safety.lean ====
section
/-! DEFINITION. The terms claims use: the invariants of the core and of one run, what a recorded exception means, and the
states that steps and host moves reach. -/

namespace Sys2Proof.Machine

/-- The end of a run (spec/70_reset_and_hazards.md R249). -/
def State.ended (s : State) : Prop := s.status = .halted ∨ s.status = .faulted

/-- The register an instruction writes when it raises nothing (spec/10_state.md R24). -/
def writesReg : Instr → Option Reg
  | .add ra _ => some ra
  | .sub ra _ => some ra
  | .mul ra _ => some ra
  | .div ra _ => some ra
  | .mov ra _ => some ra
  | .out _    => none
  | .jnz _ _  => none

/-- The registers an instruction reads (spec/10_state.md R24). -/
def readsRegs : Instr → List Reg
  | .add ra rb => [ra, rb]
  | .sub ra rb => [ra, rb]
  | .mul ra rb => [ra, rb]
  | .div ra rb => [ra, rb]
  | .mov _ _   => []
  | .out ra    => [ra]
  | .jnz ra _  => [ra]

/-- The exact result of the four operations, with div's quotient (spec/40_arithmetic.md R104, R111). -/
def exactOf (i : Instr) (s : State) : Option Int :=
  match i with
  | .add ra rb => some (s32 (readReg s ra) + s32 (readReg s rb))
  | .sub ra rb => some (s32 (readReg s ra) - s32 (readReg s rb))
  | .mul ra rb => some (s32 (readReg s ra) * s32 (readReg s rb))
  | .div ra rb => if s32 (readReg s rb) = 0 then none else some (tdiv (s32 (readReg s ra)) (s32 (readReg s rb)))
  | .mov _ _   => none
  | .out _     => none
  | .jnz _ _   => none

/-- The exception an instruction raises in a state, if any, said by its condition and not by how a meaning computes it
(spec/60_exceptions.md R201 to R203). -/
inductive Raises (s : State) : Instr → Exc → Prop where
  | addOver (ra rb) (h : s32 (readReg s ra) + s32 (readReg s rb) > intMax) :
      Raises s (.add ra rb) (.arithmeticOverflow ra rb (readReg s ra) (readReg s rb) .over)
  | addUnder (ra rb) (h : s32 (readReg s ra) + s32 (readReg s rb) < intMin) :
      Raises s (.add ra rb) (.arithmeticOverflow ra rb (readReg s ra) (readReg s rb) .under)
  | subOver (ra rb) (h : s32 (readReg s ra) - s32 (readReg s rb) > intMax) :
      Raises s (.sub ra rb) (.arithmeticOverflow ra rb (readReg s ra) (readReg s rb) .over)
  | subUnder (ra rb) (h : s32 (readReg s ra) - s32 (readReg s rb) < intMin) :
      Raises s (.sub ra rb) (.arithmeticOverflow ra rb (readReg s ra) (readReg s rb) .under)
  | mulOver (ra rb) (h : s32 (readReg s ra) * s32 (readReg s rb) > intMax) :
      Raises s (.mul ra rb) (.arithmeticOverflow ra rb (readReg s ra) (readReg s rb) .over)
  | mulUnder (ra rb) (h : s32 (readReg s ra) * s32 (readReg s rb) < intMin) :
      Raises s (.mul ra rb) (.arithmeticOverflow ra rb (readReg s ra) (readReg s rb) .under)
  | divZero (ra rb) (h : readReg s rb = 0) :
      Raises s (.div ra rb) (.divisionByZero rb)
  | divOver (ra rb) (ha : s32 (readReg s ra) = intMin) (hb : s32 (readReg s rb) = -1) :
      Raises s (.div ra rb) (.arithmeticOverflow ra rb (readReg s ra) (readReg s rb) .over)
  | unbound (ra lid) (h : readReg s ra ≠ 0) (hl : labelLookup s lid = .unbound) :
      Raises s (.jnz ra lid) (.unknownLabel lid)

/-- A word raises an exception: illegal, or its instruction's own (spec/60_exceptions.md R209). -/
def wordRaises (s : State) (w : InstrWord) (e : Exc) : Prop :=
  match decode w with
  | .error _ => e = .illegalInstruction
  | .ok i => Raises s i e

/-- What holds of the core at all times, for every `PC_W`: the loaded program is one the spec admits, `pc` and `FR.PC` are
`PC_W`-bit addresses (spec/10_state.md R25, R26), and `FR` holds an exception exactly when `STATUS` = FAULTED, its `PC`
being the core's (spec/10_state.md R28, R29). -/
structure State.Inv (c : Config) (s : State) : Prop where
  program : Memory.wf c s.imem = true
  labels  : labelsFit c s.lt = true
  pcFits  : s.pc < 2 ^ c.pcW
  frPc    : s.fr.pc < 2 ^ c.pcW
  clear   : s.status ≠ .faulted → s.fr = FaultRecord.zero
  cause   : s.status = .faulted → 1 ≤ s.fr.cause.toNat ∧ s.fr.cause.toNat ≤ 4 ∧ s.fr.pc = s.pc

/-- What holds of a run until the host's next move: a HALTED core stands at or beyond the program's end, and a FAULTED
core's record is that of an exception which the word at `pc` raises on the registers as they stand
(spec/60_exceptions.md R205, R206, spec/70_reset_and_hazards.md R249). -/
structure State.RunInv (s : State) : Prop where
  halted  : s.status = .halted → programLength s ≤ s.pc
  faulted : s.status = .faulted →
    ∃ w e, imemRead s s.pc = some w ∧ s.fr = faultRecord s.pc w e ∧ wordRaises s w e

/-- The systems reached from power-on by steps of the core and host moves. -/
inductive Reachable (c : Config) : System → Prop where
  | reset : Reachable c System.reset
  | step {y t} (h : Reachable c y) (ht : Machine.step y.core = .next t) : Reachable c { y with core := t }
  | host {y z} (m : HostMove) (h : Reachable c y) (hz : hostMove c m y = some z) : Reachable c z

/-! What spec/30_encoding.md R78 says of a whole source file, apart from how the translator goes through it. -/

/-- The lines that yield an instruction, in order, each with its label: the instruction at address k is the k-th. -/
def builtLines (lines : List (List Char)) : List (Option Token × AsmInstr) :=
  lines.filterMap (fun line => match parseLine line with
    | (label, .ok (some a)) => some (label, a)
    | (_, .ok none) => none
    | (_, .error _) => none)

/-- The label names on a line, left to right: its label, then a jnz's operand. -/
def lineNames (line : List Char) : List Token :=
  (parseLine line).1.toList ++
    match (parseLine line).2 with
    | .ok (some (.jnz _ name)) => [name]
    | .ok (some (.plain _)) => []
    | .ok none => []
    | .error _ => []

/-- The distinct names of a list in order of first appearance. -/
def firstAppearances (names : List Token) : List Token :=
  names.foldl (fun seen name => if name ∈ seen then seen else seen ++ [name]) []

/-- A name's entry: the address of the first built line that it labels, Unbound if it labels none. -/
def entryOf (built : List (Option Token × AsmInstr)) (name : Token) : LabelEntry :=
  match built.findIdx? (fun p => p.1 == some name) with
  | some addr => .bound addr
  | none => .unbound

/-- A built line's instruction, its label operand replaced by the position of the name among `ids`. -/
def resolved (ids : List Token) : AsmInstr → Instr
  | .plain i => i
  | .jnz ra name => .jnz ra (BitVec.ofNat 32 (ids.idxOf name))

end Sys2Proof.Machine
end

