-- ==== Sys2Proof/Certificates/Slice0/Obligations.lean ====
section
/-! DEFINITION. The statements for the provers, each from the numbered rules of spec/ that its docstring cites. -/

open Sys2Proof Sys2Proof.Machine

section Encoding

/-- R81: the word of every instruction as `opc·2^61 + ra·2^58 + rb·2^55 + imm`, both directions of the round trip over
all words and all instructions, and the rule's three examples. -/
def Obligations.EncodingRoundTripsBothWays : Prop :=
  (∀ ra rb, (encode (.add ra rb)).toNat = 0 * 2 ^ 61 + ra.toNat * 2 ^ 58 + rb.toNat * 2 ^ 55) ∧
  (∀ ra rb, (encode (.sub ra rb)).toNat = 1 * 2 ^ 61 + ra.toNat * 2 ^ 58 + rb.toNat * 2 ^ 55) ∧
  (∀ ra rb, (encode (.mul ra rb)).toNat = 2 * 2 ^ 61 + ra.toNat * 2 ^ 58 + rb.toNat * 2 ^ 55) ∧
  (∀ ra rb, (encode (.div ra rb)).toNat = 3 * 2 ^ 61 + ra.toNat * 2 ^ 58 + rb.toNat * 2 ^ 55) ∧
  (∀ ra lit, (encode (.mov ra lit)).toNat = 4 * 2 ^ 61 + ra.toNat * 2 ^ 58 + lit.toNat) ∧
  (∀ ra, (encode (.out ra)).toNat = 5 * 2 ^ 61 + ra.toNat * 2 ^ 58) ∧
  (∀ ra lid, (encode (.jnz ra lid)).toNat = 6 * 2 ^ 61 + ra.toNat * 2 ^ 58 + lid.toNat) ∧
  (∀ i, decode (encode i) = .ok i) ∧
  (∀ w i, decode w = .ok i → encode i = w) ∧
  encode (.mov 0 5) = 0x8000000000000005 ∧
  encode (.add 0 1) = 0x0080000000000000 ∧
  encode (.mov 7 (u32 (-1))) = 0x9C000000FFFFFFFF

/-- spec/opcode_table.json: the decoder accepts exactly the words some row covers, and gives the covering row's
instruction; two rows cover no word together. -/
def Obligations.DecoderAcceptsExactlyTheOpcodeTable : Prop :=
  (∀ w, wordLegal w = true ↔ ∃ i, decode w = .ok i) ∧
  (∀ w i, decode w = .ok i → ∀ row ∈ opcodeTable, row.covers w = true → row.mnemonic = i.mnemonic) ∧
  (∀ w, ∀ r1 ∈ opcodeTable, ∀ r2 ∈ opcodeTable, r1.covers w = true → r2.covers w = true → r1 = r2)

/-- R69 and R204: a word is illegal exactly when `OPC` = 7 or a must-be-zero field of its shape (R61) is non-zero, and
executing it raises IllegalInstruction, recording the word and bits 63:61 and nothing else but `FR.PC`. -/
def Obligations.IllegalWordsRaiseIllegalInstruction : Prop :=
  (∀ w, (∃ x, decode w = .error x) ↔
    (opcField w = 7 ∨ rsvField w ≠ 0 ∨
      ((opcField w = 0 ∨ opcField w = 1 ∨ opcField w = 2 ∨ opcField w = 3) ∧ immField w ≠ 0) ∨
      ((opcField w = 4 ∨ opcField w = 5 ∨ opcField w = 6) ∧ rbField w ≠ 0) ∨
      (opcField w = 5 ∧ immField w ≠ 0))) ∧
  (∀ s w x, s.status = .running → imemRead s s.pc = some w → decode w = .error x →
    step s = .next { s with
      status := .faulted
      fr := { cause := 4, pc := s.pc, word := w, opc := w.extractLsb' 61 3, ra := 0, rb := 0, valA := 0, valB := 0,
              dir := 0, bound := 0, label := 0 } })

/-- R70: the number of legal words of each opcode, and of all. -/
def Obligations.LegalWordCounts : Prop :=
  Nat.card { w : InstrWord // ∃ ra rb, decode w = .ok (.add ra rb) } = 64 ∧
  Nat.card { w : InstrWord // ∃ ra rb, decode w = .ok (.sub ra rb) } = 64 ∧
  Nat.card { w : InstrWord // ∃ ra rb, decode w = .ok (.mul ra rb) } = 64 ∧
  Nat.card { w : InstrWord // ∃ ra rb, decode w = .ok (.div ra rb) } = 64 ∧
  Nat.card { w : InstrWord // ∃ ra lit, decode w = .ok (.mov ra lit) } = 34359738368 ∧
  Nat.card { w : InstrWord // ∃ ra lid, decode w = .ok (.jnz ra lid) } = 34359738368 ∧
  Nat.card { w : InstrWord // ∃ ra, decode w = .ok (.out ra) } = 8 ∧
  Nat.card { w : InstrWord // ∃ i, decode w = .ok i } = 68719477000

/-- Words of spec/95_test_vectors.md 2.5 and what they decode to. -/
def Obligations.DecoderReadsTheSpecsWords : Prop :=
  decode 0x0080000000000000 = .ok (.add 0 1) ∧
  decode 0x2100000000000000 = .ok (.sub 0 2) ∧
  decode 0x4D80000000000000 = .ok (.mul 3 3) ∧
  decode 0x6080000000000000 = .ok (.div 0 1) ∧
  decode 0x8000000000000001 = .ok (.mov 0 1) ∧
  decode 0x9C000000FFFFFFFF = .ok (.mov 7 (u32 (-1))) ∧
  decode 0xA000000000000000 = .ok (.out 0) ∧
  decode 0xC800000000000000 = .ok (.jnz 2 0) ∧
  decode 0xFC000000FFFFFFFF = .error .opcode7 ∧
  decode 0x0000000000000001 = .error .immediateBits ∧
  decode 0x0040000000000000 = .error .reservedBits ∧
  decode 0x8080000000000000 = .error .secondRegister ∧
  decode 0xA000000000000001 = .error .immediateBits ∧
  decode 0xC080000000000000 = .error .secondRegister

/-- R68: the decoder's hardware outputs agree with the decoder: `illegal` is set exactly for ILLEGAL; otherwise exactly
the opcode's bit of `op` is set and the operand outputs are the instruction's. -/
def Obligations.DecoderPortsAreOneHot : Prop :=
  ∀ w,
    ((decoderPorts w).illegal = true ↔ ∃ x, decode w = .error x) ∧
    ((decoderPorts w).illegal = true → (decoderPorts w).op = 0) ∧
    (∀ i, decode w = .ok i →
      (∀ k, k < 7 → ((decoderPorts w).op.getLsbD k = true ↔ k = i.opcode.toNat)) ∧
      encodeFields i.opcode (decoderPorts w).ra (decoderPorts w).rb (decoderPorts w).imm = encode i)

end Encoding

section Step

/-- R182, R183, R185: while a run is in progress and `pc` < N, a step at a word that decodes to `i` is `exec i`; nothing
is added around it. -/
def Obligations.StepRunsTheDecodedInstruction : Prop :=
  ∀ s w i, s.status = .running → imemRead s s.pc = some w → decode w = .ok i → step s = exec i s

/-- R181: the end check comes first, sets `STATUS` to HALTED and changes nothing else; a program with N = 0 halts at its
first step. -/
def Obligations.EndCheckHaltsFirst : Prop :=
  (∀ s, s.status = .running → programLength s ≤ s.pc → step s = .next { s with status := .halted }) ∧
  (∀ s, programLength s = 0 → step (startRun s) = .next { startRun s with status := .halted })

/-- R180 with the model's choice of notes/assumptions/5.md: outside RUNNING a step answers the state it was given, for
any number of steps. -/
def Obligations.NoRunNoChange : Prop :=
  ∀ s : State, s.status ≠ .running → ∀ k, Host.Core.run Sys2Proof.core k s = .next s

/-- R187, R205: the core never stops short of a next state: every exception is one. Outside RUNNING that a step answers
at all is the model's choice (notes/assumptions/5.md). -/
def Obligations.EveryStepAnswersANextState : Prop :=
  (∀ s, ∃ t, step s = .next t) ∧ (∀ i s, ∃ t, exec i s = .next t)

/-- R187: a step's result depends on the registers, `pc`, `STATUS`, `IMEM` and `LT` only: with another `FR` and another
output stream before it, the step emits the same values and leaves the same state, `FR` kept or rewritten alike. -/
def Obligations.StepIgnoresTheFaultRecordAndTheOutput : Prop :=
  ∀ (s t : State) (f : FaultRecord) (o : List Word), step s = .next t →
    ∃ (t2 : State) (emitted : List Word), step { s with fr := f, out := o } = .next t2 ∧
      t.out = s.out ++ emitted ∧ t2 = { t with fr := t2.fr, out := o ++ emitted } ∧
      ((t.fr = s.fr ∧ t2.fr = f) ∨ t2.fr = t.fr)

/-- R41, R45, R46: a word exists at every address below N and nowhere else; `LT[id]` answers every ID below NLAB, and
every ID from NLAB on is Unbound, so that a taken jnz on it raises UnknownLabel. -/
def Obligations.FetchAndLabelLookupCoverTheirRanges : Prop :=
  (∀ s a, imemRead s a = none ↔ programLength s ≤ a) ∧
  (∀ (s : State) (a : Nat) (h : a < s.imem.length), imemRead s a = some s.imem[a]) ∧
  (∀ (s : State) (id : LabelId) (h : id.toNat < s.lt.length), labelLookup s id = s.lt[id.toNat]) ∧
  (∀ s id, labelCount s ≤ id.toNat → labelLookup s id = .unbound) ∧
  (∀ s ra id, labelCount s ≤ id.toNat → s32 (readReg s ra) ≠ 0 →
    exec (.jnz ra id) s = .next (raiseException (encode (.jnz ra id)) (.unknownLabel id) s))

end Step

section Checker

/-- R101, R102, R103: each predicate in the rule's own terms, `res` the truncated exact result. -/
def Obligations.CheckerPredicatesAreTheRules : Prop :=
  ∀ a b,
    (s32 (check .add a b).res = trunc32 (s32 a + s32 b) ∧
      ((check .add a b).ovf = true ↔
        signBit a = signBit b ∧ signBit (check .add a b).res ≠ signBit a)) ∧
    (s32 (check .sub a b).res = trunc32 (s32 a - s32 b) ∧
      ((check .sub a b).ovf = true ↔ s32 ((a ^^^ b) &&& (a ^^^ (check .sub a b).res)) < 0)) ∧
    ((sext64 a * sext64 b).toInt = s32 a * s32 b ∧
      s32 (check .mul a b).res = trunc32 (s32 a * s32 b) ∧
      ((check .mul a b).ovf = true ↔ s32 (check .mul a b).res ≠ s32 a * s32 b))

/-- R104: the three predicates are exact. -/
def Obligations.CheckerIsExact : Prop :=
  ∀ op a b,
    ((check op a b).ovf = true ↔ exactResult op a b < intMin ∨ exactResult op a b > intMax) ∧
    ((check op a b).ovf = false → s32 (check op a b).res = exactResult op a b)

/-- R105: direction and bound from the exact result, and the equivalent tests on the operands. That `dir` has no value where
`ovf` = 0, where R100 gives it no meaning, is the model's choice (notes/assumptions/8.md). -/
def Obligations.CheckerDirectionNamesTheCrossedBound : Prop :=
  (∀ op a b, ((check op a b).dir = some .over ↔ exactResult op a b > intMax) ∧
    ((check op a b).dir = some .under ↔ exactResult op a b < intMin)) ∧
  dirBound .over = 2147483647 ∧ dirBound .under = -2147483648 ∧
  (∀ a b, (check .add a b).ovf = true → ((check .add a b).dir = some .over ↔ signBit a = false)) ∧
  (∀ a b, (check .sub a b).ovf = true → ((check .sub a b).dir = some .over ↔ signBit a = false)) ∧
  (∀ a b, (check .mul a b).ovf = true → ((check .mul a b).dir = some .over ↔ signBit a = signBit b))

/-- R111: the quotient law at every sign combination, with the rule's table. -/
def Obligations.QuotientTruncatesTowardZero : Prop :=
  (∀ a b : Int, b ≠ 0 → tdiv a b = Int.tdiv a b) ∧
  (∀ a b : Int, b ≠ 0 → (tdiv a b).natAbs = a.natAbs / b.natAbs) ∧
  (∀ a b : Int, b ≠ 0 → tdiv a b ≠ 0 → (tdiv a b).sign = a.sign * b.sign) ∧
  tdiv 7 2 = 3 ∧ tdiv (-7) 2 = -3 ∧ tdiv 7 (-2) = -3 ∧ tdiv (-7) (-2) = 3

/-- R112: the one quotient of int32 values outside int32 is INT_MIN / −1, and div raises ArithmeticOverflow there with
OVER and INT_MAX. -/
def Obligations.DivOverflowsOnlyAtIntMinByMinusOne : Prop :=
  (∀ a b : Word, b ≠ 0 → (fitsInt32 (tdiv (s32 a) (s32 b)) = false ↔ s32 a = intMin ∧ s32 b = -1)) ∧
  (∀ ra rb s, s32 (readReg s ra) = intMin → s32 (readReg s rb) = -1 →
    ∃ t, exec (.div ra rb) s = .next t ∧ t.status = .faulted ∧ t.fr.cause = 1 ∧ t.fr.dir = 0 ∧
      s32 t.fr.bound = intMax ∧ t.regs = s.regs)

end Checker

section Instructions

/-- R106: ADD in full: opcode, the result where the exact sum is an int32, and the exception where it is not. -/
def Obligations.AddWritesTheExactSumOrRaises : Prop :=
  ∀ ra rb s,
    opcField (encode (.add ra rb)) = 0 ∧
    (intMin ≤ s32 (readReg s ra) + s32 (readReg s rb) → s32 (readReg s ra) + s32 (readReg s rb) ≤ intMax →
      ∃ v, s32 v = s32 (readReg s ra) + s32 (readReg s rb) ∧
        exec (.add ra rb) s = .next { writeReg s ra v with pc := s.pc + 1 }) ∧
    (s32 (readReg s ra) + s32 (readReg s rb) > intMax →
      exec (.add ra rb) s = .next { s with
        status := .faulted
        fr := { cause := 1, pc := s.pc, word := encode (.add ra rb), opc := 0, ra := ra, rb := rb,
                valA := readReg s ra, valB := readReg s rb, dir := 0, bound := 0x7FFFFFFF, label := 0 } }) ∧
    (s32 (readReg s ra) + s32 (readReg s rb) < intMin →
      exec (.add ra rb) s = .next { s with
        status := .faulted
        fr := { cause := 1, pc := s.pc, word := encode (.add ra rb), opc := 0, ra := ra, rb := rb,
                valA := readReg s ra, valB := readReg s rb, dir := 1, bound := 0x80000000, label := 0 } })

/-- R107: SUB in full. -/
def Obligations.SubWritesTheExactDifferenceOrRaises : Prop :=
  ∀ ra rb s,
    opcField (encode (.sub ra rb)) = 1 ∧
    (intMin ≤ s32 (readReg s ra) - s32 (readReg s rb) → s32 (readReg s ra) - s32 (readReg s rb) ≤ intMax →
      ∃ v, s32 v = s32 (readReg s ra) - s32 (readReg s rb) ∧
        exec (.sub ra rb) s = .next { writeReg s ra v with pc := s.pc + 1 }) ∧
    (s32 (readReg s ra) - s32 (readReg s rb) > intMax →
      exec (.sub ra rb) s = .next { s with
        status := .faulted
        fr := { cause := 1, pc := s.pc, word := encode (.sub ra rb), opc := 1, ra := ra, rb := rb,
                valA := readReg s ra, valB := readReg s rb, dir := 0, bound := 0x7FFFFFFF, label := 0 } }) ∧
    (s32 (readReg s ra) - s32 (readReg s rb) < intMin →
      exec (.sub ra rb) s = .next { s with
        status := .faulted
        fr := { cause := 1, pc := s.pc, word := encode (.sub ra rb), opc := 1, ra := ra, rb := rb,
                valA := readReg s ra, valB := readReg s rb, dir := 1, bound := 0x80000000, label := 0 } })

/-- R108: MUL in full. -/
def Obligations.MulWritesTheExactProductOrRaises : Prop :=
  ∀ ra rb s,
    opcField (encode (.mul ra rb)) = 2 ∧
    (intMin ≤ s32 (readReg s ra) * s32 (readReg s rb) → s32 (readReg s ra) * s32 (readReg s rb) ≤ intMax →
      ∃ v, s32 v = s32 (readReg s ra) * s32 (readReg s rb) ∧
        exec (.mul ra rb) s = .next { writeReg s ra v with pc := s.pc + 1 }) ∧
    (s32 (readReg s ra) * s32 (readReg s rb) > intMax →
      exec (.mul ra rb) s = .next { s with
        status := .faulted
        fr := { cause := 1, pc := s.pc, word := encode (.mul ra rb), opc := 2, ra := ra, rb := rb,
                valA := readReg s ra, valB := readReg s rb, dir := 0, bound := 0x7FFFFFFF, label := 0 } }) ∧
    (s32 (readReg s ra) * s32 (readReg s rb) < intMin →
      exec (.mul ra rb) s = .next { s with
        status := .faulted
        fr := { cause := 1, pc := s.pc, word := encode (.mul ra rb), opc := 2, ra := ra, rb := rb,
                valA := readReg s ra, valB := readReg s rb, dir := 1, bound := 0x80000000, label := 0 } })

/-- R109, R110: DIV in full: the quotient truncated toward zero, DivisionByZero naming the divisor register, and
ArithmeticOverflow at INT_MIN / −1. -/
def Obligations.DivWritesTheQuotientOrRaises : Prop :=
  ∀ ra rb s,
    opcField (encode (.div ra rb)) = 3 ∧
    (s32 (readReg s rb) ≠ 0 → ¬ (s32 (readReg s ra) = intMin ∧ s32 (readReg s rb) = -1) →
      ∃ v, s32 v = Int.tdiv (s32 (readReg s ra)) (s32 (readReg s rb)) ∧
        exec (.div ra rb) s = .next { writeReg s ra v with pc := s.pc + 1 }) ∧
    (s32 (readReg s rb) = 0 →
      exec (.div ra rb) s = .next { s with
        status := .faulted
        fr := { cause := 2, pc := s.pc, word := encode (.div ra rb), opc := 3, ra := 0, rb := rb,
                valA := 0, valB := 0, dir := 0, bound := 0, label := 0 } }) ∧
    (s32 (readReg s ra) = intMin → s32 (readReg s rb) = -1 →
      exec (.div ra rb) s = .next { s with
        status := .faulted
        fr := { cause := 1, pc := s.pc, word := encode (.div ra rb), opc := 3, ra := ra, rb := rb,
                valA := readReg s ra, valB := readReg s rb, dir := 0, bound := 0x7FFFFFFF, label := 0 } })

/-- R140: MOV in full: opcode, the literal field read as an int32, the write, no exception. -/
def Obligations.MovWritesTheLiteral : Prop :=
  ∀ ra lit s,
    opcField (encode (.mov ra lit)) = 4 ∧ s32 (immField (encode (.mov ra lit))) = s32 lit ∧
    exec (.mov ra lit) s = .next { writeReg s ra lit with pc := s.pc + 1 }

/-- R141: OUT in full: opcode, the emit, no register write, no exception. -/
def Obligations.OutEmitsTheRegister : Prop :=
  ∀ ra s,
    opcField (encode (.out ra)) = 5 ∧
    exec (.out ra) s = .next { s with out := s.out ++ [readReg s ra], pc := s.pc + 1 }

/-- R161, R162: JNZ in full: not taken at zero whatever the label, taken to the bound address, UnknownLabel otherwise. -/
def Obligations.JnzJumpsWhenNonZero : Prop :=
  ∀ ra lid s,
    opcField (encode (.jnz ra lid)) = 6 ∧
    (s32 (readReg s ra) = 0 → exec (.jnz ra lid) s = .next { s with pc := s.pc + 1 }) ∧
    (s32 (readReg s ra) ≠ 0 → ∀ t, labelLookup s lid = .bound t →
      exec (.jnz ra lid) s = .next { s with pc := t }) ∧
    (s32 (readReg s ra) ≠ 0 → labelLookup s lid = .unbound →
      exec (.jnz ra lid) s = .next { s with
        status := .faulted
        fr := { cause := 3, pc := s.pc, word := encode (.jnz ra lid), opc := 6, ra := 0, rb := 0,
                valA := 0, valB := 0, dir := 0, bound := 0, label := lid } })

/-- R24, R27, R51, R53: the frame of all seven instructions: every register but the written one, every word of memory,
every label entry and, for all but `out`, the output stream stay; `FR` and `STATUS` change only together, in trap entry. -/
def Obligations.InstructionFrame : Prop :=
  ∀ i s t, exec i s = .next t →
    (∀ r, writesReg i ≠ some r → readReg t r = readReg s r) ∧
    (∀ a, imemRead t a = imemRead s a) ∧ programLength t = programLength s ∧
    (∀ id, labelLookup t id = labelLookup s id) ∧ labelCount t = labelCount s ∧
    ((∀ ra, i ≠ .out ra) → t.out = s.out) ∧
    ((t.fr = s.fr ∧ t.status = s.status) ∨
      (t.status = .faulted ∧ t.regs = s.regs ∧ t.pc = s.pc ∧ t.out = s.out))

/-- R24: an instruction's effect depends on no register but those it reads: two states that differ in other registers
only give next states that differ in registers only and agree on the written one. -/
def Obligations.InstructionReadsOnlyItsOperands : Prop :=
  ∀ i s1 s2 t1 t2, s1 = { s2 with regs := s1.regs } →
    (∀ r ∈ readsRegs i, readReg s1 r = readReg s2 r) →
    exec i s1 = .next t1 → exec i s2 = .next t2 →
    t1 = { t2 with regs := t1.regs } ∧ (∀ r, writesReg i = some r → readReg t1 r = readReg t2 r)

/-- R114: each of the four operations either leaves the exact mathematical result in its register, or raises an
exception and writes nothing. -/
def Obligations.ArithmeticNeverWrapsSilently : Prop :=
  ∀ i ra s t, (∃ rb, i = .add ra rb ∨ i = .sub ra rb ∨ i = .mul ra rb ∨ i = .div ra rb) → exec i s = .next t →
    (∃ e, exactOf i s = some e ∧ s32 (readReg t ra) = e ∧ t.pc = s.pc + 1 ∧ t.status = s.status) ∨
    (t.status = .faulted ∧ (t.fr.cause = 1 ∨ t.fr.cause = 2) ∧ t.regs = s.regs ∧ t.pc = s.pc ∧
      ∀ e, exactOf i s = some e → fitsInt32 e = false)

/-- R21, R22, R23: the eight registers are separate: a read gives the last value written to that index and no other; the
clear leaves 0 everywhere; a write touches nothing but the bank. -/
def Obligations.RegistersAreSeparate : Prop :=
  (∀ s i j v, readReg (writeReg s i v) j = if j = i then v else readReg s j) ∧
  (∀ s i v, writeReg s i v = { s with regs := (writeReg s i v).regs }) ∧
  (∀ s i, readReg (clearRegs s) i = 0) ∧
  (∀ s t, (∀ i, readReg s i = readReg t i) → s.regs = t.regs)

end Instructions

section Exceptions

/-- R205 with the codes of R200: what taking an exception writes, that every other field of `FR` is 0, and that nothing
of the instruction is committed. -/
def Obligations.TrapEntryRecordsAndCommitsNothing : Prop :=
  (∀ w e s,
    (raiseException w e s).fr.pc = s.pc ∧ (raiseException w e s).fr.word = w ∧
    (raiseException w e s).fr.opc = w.extractLsb' 61 3 ∧
    raiseException w e s = { s with fr := (raiseException w e s).fr, status := .faulted }) ∧
  (∀ w s ra rb a b d, (raiseException w (.arithmeticOverflow ra rb a b d) s).fr =
    { cause := 1, pc := s.pc, word := w, opc := opcField w, ra := ra, rb := rb, valA := a, valB := b,
      dir := if d = .over then 0 else 1, bound := if d = .over then 0x7FFFFFFF else 0x80000000, label := 0 }) ∧
  (∀ w s rb, (raiseException w (.divisionByZero rb) s).fr =
    { cause := 2, pc := s.pc, word := w, opc := opcField w, ra := 0, rb := rb, valA := 0, valB := 0, dir := 0,
      bound := 0, label := 0 }) ∧
  (∀ w s l, (raiseException w (.unknownLabel l) s).fr =
    { cause := 3, pc := s.pc, word := w, opc := opcField w, ra := 0, rb := 0, valA := 0, valB := 0, dir := 0,
      bound := 0, label := l }) ∧
  (∀ w s, (raiseException w .illegalInstruction s).fr =
    { cause := 4, pc := s.pc, word := w, opc := opcField w, ra := 0, rb := 0, valA := 0, valB := 0, dir := 0,
      bound := 0, label := 0 })

/-- R201, R202, R203, R209: an instruction takes an exception exactly when its condition holds, that exception, and its
conditions exclude each other; otherwise it completes with `STATUS` and `FR` as they were. -/
def Obligations.ExceptionExactlyOnItsCondition : Prop :=
  (∀ i s e, Raises s i e → exec i s = .next (raiseException (encode i) e s)) ∧
  (∀ i s, (∀ e, ¬ Raises s i e) → ∃ t, exec i s = .next t ∧ t.status = s.status ∧ t.fr = s.fr) ∧
  (∀ i s e1 e2, Raises s i e1 → Raises s i e2 → e1 = e2)

/-- R206, R209: exceptions of a whole step: from a running state, a step ends FAULTED exactly when the fetched word
raises an exception, and then `FR` is that exception's record and all else is as before the step. -/
def Obligations.StepFaultsPrecisely : Prop :=
  ∀ s t, s.status = .running → step s = .next t →
    ((t.status = .faulted ↔ ∃ w e, imemRead s s.pc = some w ∧ wordRaises s w e) ∧
      ∀ w e, imemRead s s.pc = some w → wordRaises s w e →
        t = { s with status := .faulted, fr := faultRecord s.pc w e })

end Exceptions

section Control

/-- R163: a target is not checked: a bound label is jumped to wherever it points; a target at or beyond N halts at the
next step; and a label the translator registers points below N. -/
def Obligations.JumpTargetsAreUnchecked : Prop :=
  (∀ ra lid s a, s32 (readReg s ra) ≠ 0 → labelLookup s lid = .bound a →
    exec (.jnz ra lid) s = .next { s with pc := a }) ∧
  (∀ ra lid (s : State) a, s.status = .running → imemRead s s.pc = some (encode (.jnz ra lid)) →
    s32 (readReg s ra) ≠ 0 → labelLookup s lid = .bound a → programLength s ≤ a →
    Host.Core.run Sys2Proof.core 2 s = .next { s with pc := a, status := .halted }) ∧
  (∀ lines name a, (name, LabelEntry.bound a) ∈ (translate lines).names → a < (translate lines).program.length)

/-- R165: a jump to the jnz's own address on a non-zero register never ends: every number of steps leaves the state. -/
def Obligations.SelfJumpRunsForever : Prop :=
  ∀ (s : State) ra lid, s.status = .running → imemRead s s.pc = some (encode (.jnz ra lid)) →
    s32 (readReg s ra) ≠ 0 → labelLookup s lid = .bound s.pc →
    ∀ k, Host.Core.run Sys2Proof.core k s = .next s

/-- R166: the branch unit's outputs say what jnz does, whatever the label table drives for an Unbound entry. -/
def Obligations.BranchUnitDrivesJnz : Prop :=
  ∀ (fl : Floating) ra lid s,
    let lp := labelPort fl s lid
    let br := branchUnit true (readReg s ra) lp.1 lp.2
    (br.take = true ↔ readReg s ra ≠ 0) ∧
    (br.selTarget = true ↔ br.take = true ∧ lp.1 = true) ∧
    (br.unknownLabel = true ↔ br.take = true ∧ lp.1 = false) ∧
    br.target = lp.2 ∧ (labelLookup s lid = .bound br.target ↔ lp.1 = true) ∧
    (br.selTarget = true → exec (.jnz ra lid) s = .next { s with pc := br.target }) ∧
    (br.unknownLabel = true → exec (.jnz ra lid) s = .next (raiseException (encode (.jnz ra lid)) (.unknownLabel lid) s)) ∧
    (br.selTarget = false → br.unknownLabel = false → exec (.jnz ra lid) s = .next { s with pc := s.pc + 1 }) ∧
    (∀ x b a, (branchUnit false x b a).take = false ∧ (branchUnit false x b a).selTarget = false ∧
      (branchUnit false x b a).unknownLabel = false ∧ (branchUnit false x b a).target = a)

/-- R26, R160: from an admitted state a step leaves `pc` a `PC_W`-bit address, for every `PC_W`; it keeps it (end check,
exception), adds one without passing N, or, for a taken jnz alone, sets the bound address. -/
def Obligations.ProgramCounterNeverWraps : Prop :=
  ∀ c s t, s.Inv c → s.status = .running → step s = .next t →
    t.pc < 2 ^ c.pcW ∧
    ((t.pc = s.pc ∧ t.status ≠ .running) ∨
      (t.pc = s.pc + 1 ∧ s.pc + 1 ≤ programLength s) ∨
      ∃ ra lid a, imemRead s s.pc = some (encode (.jnz ra lid)) ∧ s32 (readReg s ra) ≠ 0 ∧
        labelLookup s lid = .bound a ∧ t.pc = a)

/-- R23, R68, R166, R184: the datapath of ports, one-hot decoder, functional units and mux computes the machine's step in
every running state, whatever its undriven wires carry. -/
def Obligations.DatapathComputesTheStep : Prop :=
  ∀ (fl : Floating) s, s.status = .running → step s = .next (datapathStep fl s)

end Control

section RunControl

/-- R34: the power-on values of the core's own state. -/
def Obligations.PowerOnValues : Prop :=
  (∀ i, readReg State.reset i = 0) ∧ State.reset.pc = 0 ∧ State.reset.status = .idle ∧
  statusCode State.reset.status = 0 ∧
  State.reset.fr = { cause := 0, pc := 0, word := 0, opc := 0, ra := 0, rb := 0, valA := 0, valB := 0, dir := 0,
                     bound := 0, label := 0 } ∧
  (∀ s, startRun s = { startRun State.reset with imem := s.imem, lt := s.lt, out := s.out })

/-- R240: a start is accepted in IDLE, HALTED and FAULTED; it clears the bank, `pc` and `FR`, sets RUNNING and leaves
`IMEM`, `N` and `LT`. -/
def Obligations.StartClearsTheCore : Prop :=
  ∀ s, s.status = .idle ∨ s.status = .halted ∨ s.status = .faulted →
    ∃ t, startCommand s = some t ∧ (∀ i, readReg t i = 0) ∧ t.pc = 0 ∧ t.fr = FaultRecord.zero ∧
      t.status = .running ∧ t.imem = s.imem ∧ programLength t = programLength s ∧ t.lt = s.lt

/-- R35, R51, R241, R243: the host has no move and no read during a run, reads the core's state between runs, and cannot
start what it has loaded of a source whose translation failed. That the host loads it at all is the model's choice
(notes/assumptions/13.md). -/
def Obligations.HostActsBetweenRunsOnly : Prop :=
  (∀ c m (y : System), y.core.status = .running →
    hostMove c m y = none ∧ startCommand y.core = none ∧ hostRead y.core = none) ∧
  (∀ s, s.status ≠ .running →
    hostRead s = some { status := statusCode s.status, fr := s.fr, regs := s.regs, pc := s.pc }) ∧
  (∀ c lines (y : System), y.core.status ≠ .running → (translate lines).failure ≠ none →
    ∃ z, hostMove c (.loadSource lines) y = some z ∧ hostMove c .start z = none)

/-- R240, R243: where no structural failure is remembered the host's start is the core's start command. After a structural
failure the host has no start move, and no move gives it one but a translation without a structural failure, whose program
and table are then the loaded ones. That raw loads do not give it one either is the
model's choice (notes/assumptions/13.md). -/
def Obligations.NoStartAfterAStructuralFailure : Prop :=
  (∀ c (y : System), y.translationFailed = false →
    hostMove c .start y = (startCommand y.core).map (fun s => { y with core := s })) ∧
  (∀ c (y : System), y.translationFailed = true → hostMove c .start y = none) ∧
  (∀ c lines (y z : System), hostMove c (.loadSource lines) y = some z →
    (z.translationFailed = true ↔ (translate lines).failure ≠ none)) ∧
  (∀ c m (y z : System), hostMove c m y = some z → z.translationFailed ≠ y.translationFailed →
    ∃ lines, m = .loadSource lines ∧
      (z.translationFailed = false → (translate lines).failure = none ∧
        z.core.imem = (translationImage (translate lines)).imem ∧ z.core.lt = (translationImage (translate lines)).lt)) ∧
  System.reset.translationFailed = false

/-- R242: two runs of the same loaded program from a start agree step for step, whatever the cores held before: the
same registers, `pc`, `STATUS` and `FR`, and the same values emitted since the start. That steps go on answering after a run's
end is the model's choice (notes/assumptions/5.md). -/
def Obligations.RepeatedRunsAgree : Prop :=
  ∀ s1 s2 : State, s1.imem = s2.imem → s1.lt = s2.lt → ∀ k, ∃ (u1 u2 : State) (emitted : List Word),
    Host.Core.run Sys2Proof.core k (startRun s1) = .next u1 ∧
    Host.Core.run Sys2Proof.core k (startRun s2) = .next u2 ∧
    u1 = { u2 with out := u1.out } ∧ u1.out = s1.out ++ emitted ∧ u2.out = s2.out ++ emitted

/-- R51: no step, and no number of steps, changes `IMEM`, `N` or `LT`, and the host has no move that does during a run. -/
def Obligations.ProgramIsImmutableDuringARun : Prop :=
  (∀ k (s t : State), Host.Core.run Sys2Proof.core k s = .next t → t.imem = s.imem ∧ t.lt = s.lt) ∧
  (∀ c m (y : System), y.core.status = .running → hostMove c m y = none)

/-- R53, R143: a step emits only by a completed `out`, appending the register's value; over any number of steps nothing
is withdrawn. -/
def Obligations.OutputOnlyGrowsByOut : Prop :=
  (∀ s t, step s = .next t → t.out = s.out ∨
    ∃ ra, s.status = .running ∧ imemRead s s.pc = some (encode (.out ra)) ∧ t.out = s.out ++ [readReg s ra]) ∧
  (∀ s ra, s.status = .running → imemRead s s.pc = some (encode (.out ra)) →
    ∃ t, step s = .next t ∧ t.out = s.out ++ [readReg s ra]) ∧
  (∀ k (s t : State), Host.Core.run Sys2Proof.core k s = .next t → ∃ emitted, t.out = s.out ++ emitted)

/-- R28: the codes of `STATUS`, its power-on value and its transitions: a step leaves RUNNING only for HALTED or FAULTED
and changes no other status; a start takes each of the other three to RUNNING; no other host move changes it. -/
def Obligations.StatusTransitions : Prop :=
  statusCode .idle = 0 ∧ statusCode .running = 1 ∧ statusCode .halted = 2 ∧ statusCode .faulted = 3 ∧
  State.reset.status = .idle ∧
  (∀ s, s.status = .idle ∨ s.status = .halted ∨ s.status = .faulted →
    ∃ t, startCommand s = some t ∧ t.status = .running) ∧
  (∀ s t, step s = .next t → t.status ≠ s.status →
    s.status = .running ∧
      ((t.status = .halted ∧ programLength s ≤ s.pc) ∨
        (t.status = .faulted ∧ ∃ w e, imemRead s s.pc = some w ∧ wordRaises s w e))) ∧
  (∀ c m (y z : System), hostMove c m y = some z → y.core.status ≠ .running ∧
    ((m = .start ∧ startCommand y.core = some z.core) ∨ (m ≠ .start ∧ z.core.status = y.core.status)))

/-- R249: a run ends in exactly one of three ways: HALTED at or beyond the program's end, FAULTED, or never; an ended run
keeps its state. That a step answers the same state once the run has ended is the model's choice (notes/assumptions/5.md). -/
def Obligations.RunEndsInExactlyOneWay : Prop :=
  ∀ s : State, s.status = .running →
    let halts := ∃ (k : Nat) (t : State), Host.Core.run Sys2Proof.core k s = .next t ∧ t.status = .halted ∧ programLength t ≤ t.pc ∧
      t.fr = s.fr
    let faults := ∃ (k : Nat) (t : State), Host.Core.run Sys2Proof.core k s = .next t ∧ t.status = .faulted ∧ t.pc = t.fr.pc
    let hangs := ∀ k : Nat, ∃ t : State, Host.Core.run Sys2Proof.core k s = .next t ∧ t.status = .running
    (halts ∨ faults ∨ hangs) ∧ ¬ (halts ∧ faults) ∧ ¬ (halts ∧ hangs) ∧ ¬ (faults ∧ hangs)

end RunControl

section Invariants

/-- The invariant of the core is kept by every step from every state that meets it, for every `PC_W`. -/
def Obligations.StepKeepsTheInvariant : Prop :=
  ∀ c s t, s.Inv c → step s = .next t → t.Inv c

/-- The invariant holds at power-on, for every `PC_W`. The empty program and label table are the model's choice
(notes/assumptions/3.md). -/
def Obligations.ResetMeetsTheInvariant : Prop :=
  ∀ c, State.reset.Inv c

/-- Every state reached from power-on by steps and host moves, in any order, meets the invariant. Which loads the host has,
and that they come in any order, is the model's choice (notes/assumptions/13.md). -/
def Obligations.EveryReachableStateMeetsTheInvariant : Prop :=
  ∀ c (y : System), Reachable c y → y.core.Inv c

/-- R206, R249: what a run's end means is kept by every step: HALTED stands at the program's end, and a FAULTED core's
record is that of an exception the word at `pc` raises on the registers as they stand. -/
def Obligations.StepKeepsTheRunInvariant : Prop :=
  ∀ s t, s.RunInv → step s = .next t → t.RunInv

/-- R34, R240: power-on and every start meet the run invariant. R26, R46: every move of the host keeps the core's invariant;
that a load which does not fit is no move is the model's choice (notes/assumptions/13.md). -/
def Obligations.StartsMeetTheRunInvariant : Prop :=
  State.reset.RunInv ∧ (∀ s, (startRun s).RunInv) ∧
  (∀ c m (y z : System), y.core.Inv c → hostMove c m y = some z → z.core.Inv c)

end Invariants

section Text

/-- R142: the sink's text of an emitted int32: a `-` exactly for a negative value, then the magnitude's ASCII digits
without a leading zero, then LINE_TERMINATOR; reading the digits back gives the value. -/
def Obligations.SinkTextIsDecimal : Prop :=
  ∀ (c : Config) (v : Word), ∃ digits : List Char,
    digits ≠ [] ∧ (∀ ch ∈ digits, 48 ≤ ch.toNat ∧ ch.toNat ≤ 57) ∧
    (digits.head? = some '0' → digits = ['0']) ∧
    parseDigits digits = some (s32 v).natAbs ∧
    sinkLine c v = (if s32 v < 0 then ['-'] else []) ++ digits ++ c.lineTerminator

/-- R76: an integer token is an optional sign and one or more ASCII digits, with the value they spell; a literal is one
whose value is an int32, and any other token is InvalidInteger. -/
def Obligations.LiteralTokensAreInt32 : Prop :=
  (∀ tok v, parseInteger tok = some v ↔
    ∃ digits : List Char, digits ≠ [] ∧ (∀ ch ∈ digits, 48 ≤ ch.toNat ∧ ch.toNat ≤ 57) ∧
      let n : Int := digits.foldl (fun (acc : Int) ch => acc * 10 + (ch.toNat - 48)) 0
      (tok = digits ∧ v = n) ∨ (tok = '+' :: digits ∧ v = n) ∨ (tok = '-' :: digits ∧ v = -n)) ∧
  (∀ tok w, literalOperand tok = .ok w ↔ ∃ v, parseInteger tok = some v ∧ intMin ≤ v ∧ v ≤ intMax ∧ s32 w = v) ∧
  (∀ tok, (∀ w, literalOperand tok ≠ .ok w) → literalOperand tok = .error (.invalidInteger tok))

/-- R72, R74, R80: the canonical text of an instruction, with or without a label, translates back to it. Names hold no
white space, label names no `:` (notes/assumptions/10.md says what white space is). -/
def Obligations.CanonicalTextTranslatesBack : Prop :=
  ∀ (label : Option Token) (a : AsmInstr),
    (∀ name, label = some name → name ≠ [] ∧ ':' ∉ name ∧ ∀ ch ∈ name, isBlank ch = false) →
    (∀ ra lid, a ≠ .plain (.jnz ra lid)) →
    (∀ ra name, a = .jnz ra name → name ≠ [] ∧ ∀ ch ∈ name, isBlank ch = false) →
    parseLine (canonicalText label a) = (label, .ok (some a))

/-- R46, R78: a label's first binding is never changed by the lines that follow, and its ID stays. -/
def Obligations.FirstLabelBindingIsKept : Prop :=
  ∀ (lines : List (List Char)) (n : Nat) (t : Translation) (k : Nat) (name : Token) (a : Nat), t.names[k]? = some (name, LabelEntry.bound a) →
    (translateFrom n t lines).names[k]? = some (name, LabelEntry.bound a)

/-- R78 for every source without a structural failure: the label IDs number the distinct names, definitions and jnz operands,
those on label-only lines included, in order of first appearance in the file; NLAB is their number; a name's entry is the
address of the first instruction line that it labels, Unbound if there is none; the program is the built lines in order, a
jnz holding its name's ID. -/
def Obligations.LabelTableNamesTheFilesLabels : Prop :=
  ∀ lines, (translate lines).failure = none →
    (translate lines).names.map Prod.fst = firstAppearances (lines.flatMap lineNames) ∧
    (translationImage (translate lines)).lt =
      (firstAppearances (lines.flatMap lineNames)).map (entryOf (builtLines lines)) ∧
    (translate lines).program =
      (builtLines lines).map (fun p => resolved (firstAppearances (lines.flatMap lineNames)) p.2)

/-- R78, R204: what the translator builds: label names are distinct, and every word of the image is a legal word of the
instruction at its address. -/
def Obligations.TranslatedImageIsLegal : Prop :=
  ∀ lines,
    ((translate lines).names.map Prod.fst).Nodup ∧
    (translationImage (translate lines)).imem.length = (translate lines).program.length ∧
    (∀ (a : Nat) (w : InstrWord), (translationImage (translate lines)).imem[a]? = some w →
      ∃ i, (translate lines).program[a]? = some i ∧ decode w = .ok i)

end Text
end

