-- ==== Sys2Proof/Laws/Assembler.lean ====
section
/-! SUPPORT. Tokens, names and the building of the label table, one lemma per function. -/

namespace Sys2Proof.Machine

/-- Characters without white space extend the current token. -/
theorem tokensFrom_word (cur w : Token) (rest : List Char) (h : ∀ ch ∈ w, isBlank ch = false) :
    tokensFrom cur (w ++ rest) = tokensFrom (cur ++ w) rest := by
  induction w generalizing cur with
  | nil => simp
  | cons ch w ih =>
    simp only [List.cons_append, tokensFrom, h ch (by simp)]
    rw [if_neg (by simp), ih _ (fun d hd => h d (by simp [hd]))]
    simp

/-- Every register's name is a non-empty token without white space that names that register. -/
theorem registerName_spec (r : Reg) :
    (registerName r).all (fun ch => !isBlank ch) = true ∧ registerName r ≠ [] ∧
    parseRegister (registerName r) = some r := by
  revert r
  decide

/-- Every mnemonic's token is non-empty, without white space, no label token, and spells that mnemonic. -/
theorem mnemonicToken_spec (m : Mnemonic) :
    (mnemonicToken m).all (fun ch => !isBlank ch) = true ∧ mnemonicToken m ≠ [] ∧
    labelName (mnemonicToken m) = none ∧ parseMnemonic (mnemonicToken m) = some m := by
  cases m <;> decide

theorem digitChar_toNat {d : Nat} (h : d < 10) : (digitChar d).toNat = 48 + d := by
  unfold digitChar
  interval_cases d <;> rfl

theorem digitValue_digitChar {d : Nat} (h : d < 10) : digitValue (digitChar d) = some d := by
  unfold digitValue
  rw [digitChar_toNat h]
  simp
  omega

@[simp] theorem mentionLabel_program (label : Option Token) (t : Translation) :
    (mentionLabel label t).program = t.program := by
  cases label <;> rfl
@[simp] theorem mentionLabel_failure (label : Option Token) (t : Translation) :
    (mentionLabel label t).failure = t.failure := by
  cases label <;> rfl
@[simp] theorem mentionLabel_duplicates (label : Option Token) (t : Translation) :
    (mentionLabel label t).duplicates = t.duplicates := by
  cases label <;> rfl

@[simp] theorem mentionLabel_none (t : Translation) : mentionLabel none t = t := rfl
@[simp] theorem mentionLabel_some_names (name : Token) (t : Translation) :
    (mentionLabel (some name) t).names = internName t.names name := rfl

/-- Interning puts the name among the names and keeps the others in their order. -/
theorem internName_fst (names : List (Token × LabelEntry)) (name : Token) :
    (internName names name).map Prod.fst =
      if name ∈ names.map Prod.fst then names.map Prod.fst else names.map Prod.fst ++ [name] := by
  unfold internName
  split <;> simp

/-- Binding changes no name and no ID. -/
@[simp] theorem bindName_fst (names : List (Token × LabelEntry)) (name : Token) (addr : Nat) :
    (bindName names name addr).map Prod.fst = names.map Prod.fst := by
  simp only [bindName, List.map_map]
  refine List.map_congr_left fun p _ => ?_
  simp only [Function.comp]
  split <;> rfl

@[simp] theorem registerLabel_none (n : Nat) (t : Translation) : registerLabel n none t = t := rfl

/-- A duplicate definition keeps the first binding. -/
theorem registerLabel_names_of_bound (n : Nat) {name : Token} {t : Translation} (h : isBound t.names name = true) :
    (registerLabel n (some name) t).names = t.names := by
  simp [registerLabel, h]

/-- A first definition binds the name to the current program length. -/
theorem registerLabel_names_of_unbound (n : Nat) {name : Token} {t : Translation} (h : isBound t.names name = false) :
    (registerLabel n (some name) t).names = bindName t.names name t.program.length := by
  simp [registerLabel, h]

/-- Registering changes no name and no ID. -/
@[simp] theorem registerLabel_fst (n : Nat) (label : Option Token) (t : Translation) :
    (registerLabel n label t).names.map Prod.fst = t.names.map Prod.fst := by
  unfold registerLabel
  rcases label with _ | name
  · rfl
  · simp only
    split
    · rfl
    · exact bindName_fst _ _ _

theorem registerLabel_program (n : Nat) (label : Option Token) (t : Translation) :
    (registerLabel n label t).program = t.program := by
  unfold registerLabel
  rcases label with _ | name
  · rfl
  · simp only
    split <;> rfl

theorem appendInstr_program_length (a : AsmInstr) (t : Translation) :
    (appendInstr a t).program.length = t.program.length + 1 := by
  cases a <;> simp [appendInstr]

/-- An entry after interning a name is an old one, or the new name's, Unbound. -/
theorem mem_internName {names : List (Token × LabelEntry)} {name : Token} {p : Token × LabelEntry}
    (h : p ∈ internName names name) : p ∈ names ∨ p = (name, .unbound) := by
  unfold internName at h
  split at h
  · exact .inl h
  · simpa using h

end Sys2Proof.Machine
end

