-- ==== Sys2Proof/Laws/Decode.lean ====
section
/-! SUPPORT. The fields of an assembled word, and the fields determine the word. -/

namespace Sys2Proof

section
variable (opc : BitVec 3) (ra rb : Reg) (imm : BitVec 32)

/-- `word = opc·2^61 + ra·2^58 + rb·2^55 + imm` (spec/30_encoding.md R81). -/
theorem encodeFields_toNat :
    (encodeFields opc ra rb imm).toNat = opc.toNat * 2 ^ 61 + ra.toNat * 2 ^ 58 + rb.toNat * 2 ^ 55 + imm.toNat := by
  have h1 := opc.isLt
  have h2 := ra.isLt
  have h3 := rb.isLt
  have h4 := imm.isLt
  simp only [encodeFields, BitVec.toNat_append]
  rw [← Nat.shiftLeft_add_eq_or_of_lt h2, ← Nat.shiftLeft_add_eq_or_of_lt h3,
    ← Nat.shiftLeft_add_eq_or_of_lt (by decide : (0#23).toNat < 2 ^ 23), ← Nat.shiftLeft_add_eq_or_of_lt h4]
  simp only [Nat.shiftLeft_eq, BitVec.toNat_ofNat]
  omega

@[simp] theorem opcField_encodeFields : opcField (encodeFields opc ra rb imm) = opc := by
  apply BitVec.eq_of_toNat_eq
  have h1 := opc.isLt
  have h2 := ra.isLt
  have h3 := rb.isLt
  have h4 := imm.isLt
  simp only [opcField, BitVec.extractLsb'_toNat, encodeFields_toNat, Nat.shiftRight_eq_div_pow]
  omega

@[simp] theorem raField_encodeFields : raField (encodeFields opc ra rb imm) = ra := by
  apply BitVec.eq_of_toNat_eq
  have h2 := ra.isLt
  have h3 := rb.isLt
  have h4 := imm.isLt
  simp only [raField, BitVec.extractLsb'_toNat, encodeFields_toNat, Nat.shiftRight_eq_div_pow]
  omega

@[simp] theorem rbField_encodeFields : rbField (encodeFields opc ra rb imm) = rb := by
  apply BitVec.eq_of_toNat_eq
  have h3 := rb.isLt
  have h4 := imm.isLt
  simp only [rbField, BitVec.extractLsb'_toNat, encodeFields_toNat, Nat.shiftRight_eq_div_pow]
  omega

@[simp] theorem rsvField_encodeFields : rsvField (encodeFields opc ra rb imm) = 0 := by
  apply BitVec.eq_of_toNat_eq
  have h4 := imm.isLt
  simp only [rsvField, BitVec.extractLsb'_toNat, encodeFields_toNat, Nat.shiftRight_eq_div_pow]
  simp only [BitVec.ofNat_eq_ofNat, BitVec.toNat_ofNat]
  omega

@[simp] theorem immField_encodeFields : immField (encodeFields opc ra rb imm) = imm := by
  apply BitVec.eq_of_toNat_eq
  have h4 := imm.isLt
  simp only [immField, BitVec.extractLsb'_toNat, encodeFields_toNat, Nat.shiftRight_eq_div_pow]
  omega

end

/-- A word whose reserved bits are zero is the word of its fields. -/
theorem encodeFields_of_fields (w : InstrWord) (h : rsvField w = 0) :
    encodeFields (opcField w) (raField w) (rbField w) (immField w) = w := by
  apply BitVec.eq_of_toNat_eq
  have hw := w.isLt
  have hr := congrArg BitVec.toNat h
  simp only [rsvField, BitVec.extractLsb'_toNat, Nat.shiftRight_eq_div_pow, BitVec.ofNat_eq_ofNat,
    BitVec.toNat_ofNat] at hr
  simp only [encodeFields_toNat, opcField, raField, rbField, immField, BitVec.extractLsb'_toNat,
    Nat.shiftRight_eq_div_pow]
  omega

end Sys2Proof
end

