-- ==== Sys2Proof/Laws/Flags.lean ====
section
/-! SUPPORT. The values of spec/00_scope.md R6 as Lean's own, and the checker's outputs one by one. -/

namespace Sys2Proof.Machine

theorem s32_range (a : Word) : -2147483648 ≤ s32 a ∧ s32 a ≤ 2147483647 := by
  have h1 := BitVec.le_toInt a
  have h2 := BitVec.toInt_lt (x := a)
  simp only [s32]
  simp at h1 h2
  omega

theorem s32_eq_zero_iff (a : Word) : s32 a = 0 ↔ a = 0 :=
  ⟨fun h => BitVec.toInt_inj.1 (by simpa [s32] using h), fun h => by subst h; rfl⟩

theorem u32_s32 (a : Word) : u32 (s32 a) = a := by simp [u32, s32]

/-- A value in range is the int32 of its own pattern. -/
theorem s32_u32_of_fits {v : Int} (h : intMin ≤ v ∧ v ≤ intMax) : s32 (u32 v) = v := by
  simp only [intMin, intMax] at h
  unfold s32 u32
  rw [BitVec.toInt_ofInt, Int.bmod_eq_of_le] <;> simp <;> omega

theorem trunc32_eq_bmod (v : Int) : trunc32 v = v.bmod 4294967296 := by
  unfold trunc32
  rw [Int.bmod_def]
  split <;> omega

theorem signBit_eq_neg (a : Word) : signBit a = decide (s32 a < 0) := by
  unfold signBit s32
  rw [← BitVec.msb_eq_toInt, BitVec.msb_eq_getLsbD_last]

theorem toInt_sext64 (a : Word) : (sext64 a).toInt = s32 a := by
  unfold sext64 s32
  rw [BitVec.toInt_signExtend_of_le (by omega)]

theorem check_add (a b : Word) :
    (check .add a b).res = a + b ∧
    (check .add a b).ovf = (signBit a == signBit b && signBit (a + b) != signBit a) := ⟨rfl, rfl⟩

theorem check_sub (a b : Word) :
    (check .sub a b).res = a - b ∧ (check .sub a b).ovf = ((a ^^^ b) &&& (a ^^^ (a - b))).getLsbD 31 := ⟨rfl, rfl⟩

theorem check_mul (a b : Word) :
    (check .mul a b).res = (sext64 a * sext64 b).setWidth 32 ∧
    (check .mul a b).ovf = (sext64 ((sext64 a * sext64 b).setWidth 32) != sext64 a * sext64 b) := ⟨rfl, rfl⟩

/-- The direction is given exactly when an overflow is reported. -/
theorem check_dir (op : CheckOp) (a b : Word) :
    (check op a b).dir = if (check op a b).ovf then some (directionOf (exactResult op a b)) else none := rfl

end Sys2Proof.Machine
end

