-- ==== Sys2Proof/Laws/State.lean ====
section
/-! SUPPORT. One lemma per field for each update of the state. -/

namespace Sys2Proof.Machine

section
variable (s : State) (i : Reg) (v : Word) (w : InstrWord) (e : Exc)

@[simp] theorem writeReg_pc : (writeReg s i v).pc = s.pc := rfl
@[simp] theorem writeReg_status : (writeReg s i v).status = s.status := rfl
@[simp] theorem writeReg_fr : (writeReg s i v).fr = s.fr := rfl
@[simp] theorem writeReg_imem : (writeReg s i v).imem = s.imem := rfl
@[simp] theorem writeReg_lt : (writeReg s i v).lt = s.lt := rfl
@[simp] theorem writeReg_out : (writeReg s i v).out = s.out := rfl

@[simp] theorem clearRegs_pc : (clearRegs s).pc = s.pc := rfl
@[simp] theorem clearRegs_status : (clearRegs s).status = s.status := rfl
@[simp] theorem clearRegs_fr : (clearRegs s).fr = s.fr := rfl
@[simp] theorem clearRegs_imem : (clearRegs s).imem = s.imem := rfl
@[simp] theorem clearRegs_lt : (clearRegs s).lt = s.lt := rfl
@[simp] theorem clearRegs_out : (clearRegs s).out = s.out := rfl

@[simp] theorem outEmit_regs : (outEmit s v).regs = s.regs := rfl
@[simp] theorem outEmit_pc : (outEmit s v).pc = s.pc := rfl
@[simp] theorem outEmit_status : (outEmit s v).status = s.status := rfl
@[simp] theorem outEmit_fr : (outEmit s v).fr = s.fr := rfl
@[simp] theorem outEmit_imem : (outEmit s v).imem = s.imem := rfl
@[simp] theorem outEmit_lt : (outEmit s v).lt = s.lt := rfl
@[simp] theorem outEmit_out : (outEmit s v).out = s.out ++ [v] := rfl

@[simp] theorem haltRun_regs : (haltRun s).regs = s.regs := rfl
@[simp] theorem haltRun_pc : (haltRun s).pc = s.pc := rfl
@[simp] theorem haltRun_status : (haltRun s).status = .halted := rfl
@[simp] theorem haltRun_fr : (haltRun s).fr = s.fr := rfl
@[simp] theorem haltRun_imem : (haltRun s).imem = s.imem := rfl
@[simp] theorem haltRun_lt : (haltRun s).lt = s.lt := rfl
@[simp] theorem haltRun_out : (haltRun s).out = s.out := rfl

@[simp] theorem raiseException_regs : (raiseException w e s).regs = s.regs := rfl
@[simp] theorem raiseException_pc : (raiseException w e s).pc = s.pc := rfl
@[simp] theorem raiseException_status : (raiseException w e s).status = .faulted := rfl
@[simp] theorem raiseException_fr : (raiseException w e s).fr = faultRecord s.pc w e := rfl
@[simp] theorem raiseException_imem : (raiseException w e s).imem = s.imem := rfl
@[simp] theorem raiseException_lt : (raiseException w e s).lt = s.lt := rfl
@[simp] theorem raiseException_out : (raiseException w e s).out = s.out := rfl

@[simp] theorem startRun_pc : (startRun s).pc = 0 := rfl
@[simp] theorem startRun_status : (startRun s).status = .running := rfl
@[simp] theorem startRun_fr : (startRun s).fr = FaultRecord.zero := rfl
@[simp] theorem startRun_imem : (startRun s).imem = s.imem := rfl
@[simp] theorem startRun_lt : (startRun s).lt = s.lt := rfl
@[simp] theorem startRun_out : (startRun s).out = s.out := rfl

@[simp] theorem withFetchWord_regs (nbits x : Nat) : (s.withFetchWord nbits x).regs = s.regs := rfl
@[simp] theorem withFetchWord_pc (nbits x : Nat) : (s.withFetchWord nbits x).pc = s.pc := rfl
@[simp] theorem withFetchWord_status (nbits x : Nat) : (s.withFetchWord nbits x).status = .running := rfl
@[simp] theorem withFetchWord_fr (nbits x : Nat) : (s.withFetchWord nbits x).fr = s.fr := rfl
@[simp] theorem withFetchWord_lt (nbits x : Nat) : (s.withFetchWord nbits x).lt = s.lt := rfl
@[simp] theorem withFetchWord_out (nbits x : Nat) : (s.withFetchWord nbits x).out = s.out := rfl

end

section
variable (next : NextPc) (wb : Option (Reg × Word)) (emit : Option Word) (s : State)

@[simp] theorem commit_pc : (commit next wb emit s).pc = nextPc s.pc next := rfl
@[simp] theorem commit_status : (commit next wb emit s).status = s.status := by
  rcases wb with _ | ⟨i, v⟩ <;> rcases emit with _ | x <;> rfl
@[simp] theorem commit_fr : (commit next wb emit s).fr = s.fr := by
  rcases wb with _ | ⟨i, v⟩ <;> rcases emit with _ | x <;> rfl
@[simp] theorem commit_imem : (commit next wb emit s).imem = s.imem := by
  rcases wb with _ | ⟨i, v⟩ <;> rcases emit with _ | x <;> rfl
@[simp] theorem commit_lt : (commit next wb emit s).lt = s.lt := by
  rcases wb with _ | ⟨i, v⟩ <;> rcases emit with _ | x <;> rfl
@[simp] theorem commit_out : (commit next wb emit s).out = s.out ++ emit.toList := by
  rcases wb with _ | ⟨i, v⟩ <;> rcases emit with _ | x <;> simp [commit, writeReg]
@[simp] theorem commit_regs_none : (commit next none emit s).regs = s.regs := by
  rcases emit with _ | x <;> rfl
@[simp] theorem commit_regs_some (i : Reg) (v : Word) :
    (commit next (some (i, v)) emit s).regs = (writeReg s i v).regs := by
  rcases emit with _ | x <;> rfl

end

end Sys2Proof.Machine
end

