-- ==== Sys2Proof/Laws/Ops.lean ====
section
/-! SUPPORT. What each shared operation can do, said once. -/

namespace Sys2Proof.Machine

/-! Registers. -/

theorem readReg_of_regs {s t : State} (h : t.regs = s.regs) (r : Reg) : readReg t r = readReg s r := by
  simp [readReg, h]

theorem readReg_writeReg_same (s : State) (i : Reg) (v : Word) : readReg (writeReg s i v) i = v := by
  simp [readReg, writeReg]

theorem readReg_writeReg_of_ne (s : State) {i j : Reg} (v : Word) (h : j ≠ i) :
    readReg (writeReg s i v) j = readReg s j := by
  have hij : i.toNat ≠ j.toNat := fun e => h (BitVec.eq_of_toNat_eq e.symm)
  simp [readReg, writeReg, hij]

theorem readReg_clearRegs (s : State) (i : Reg) : readReg (clearRegs s) i = 0 := by
  simp [readReg, clearRegs]

theorem readReg_startRun (s : State) (i : Reg) : readReg (startRun s) i = 0 := by
  simp [readReg, startRun, clearRegs]

/-! Instruction memory. -/

theorem imemRead_eq_none_iff (s : State) (a : Nat) : imemRead s a = none ↔ programLength s ≤ a := by
  simp [imemRead, programLength]

theorem imemRead_lt {s : State} {a : Nat} {w : InstrWord} (h : imemRead s a = some w) : a < programLength s := by
  rcases Nat.lt_or_ge a (programLength s) with h' | h'
  · exact h'
  · rw [(imemRead_eq_none_iff s a).2 h'] at h
    cases h

/-- The memory's addresses rise strictly: the list of words is its own canonical form. -/
theorem Memory.cells_rising (imem : List InstrWord) : (Memory.cells imem).Pairwise (fun p q => p.1 < q.1) := by
  rw [List.pairwise_iff_getElem]
  intro i j hi hj hij
  simpa [Memory.cells] using hij

/-- A pair is in the view exactly when the memory reads so. -/
theorem Memory.mem_cells (imem : List InstrWord) (a : Nat) (w : InstrWord) :
    (a, w) ∈ Memory.cells imem ↔ imem[a]? = some w := by
  simp [Memory.cells, List.mem_zipIdx_iff_getElem?]

theorem Memory.reset_wf (c : Config) : Memory.wf c State.reset.imem = true := by
  simp [Memory.wf, programFits, State.reset]

theorem placeWord_length (imem : List InstrWord) (a : Nat) (w : InstrWord) :
    (placeWord imem a w).length = max imem.length (a + 1) := by
  unfold placeWord
  split <;> simp <;> omega

theorem placeWord_same (imem : List InstrWord) (a : Nat) (w : InstrWord) :
    (placeWord imem a w)[a]? = some w := by
  unfold placeWord
  split
  · simp [*]
  · rename_i h
    have : imem.length + (a - imem.length) = a := by omega
    rw [List.getElem?_append_right (by simp; omega)]
    simp [this]

theorem placeWord_other (imem : List InstrWord) {a b : Nat} (w : InstrWord) (hb : b < imem.length) (h : b ≠ a) :
    (placeWord imem a w)[b]? = imem[b]? := by
  unfold placeWord
  split
  · simp [Ne.symm h]
  · rw [List.append_assoc, List.getElem?_append_left hb]

/-- Placing a word below `2^PC_W − 1` keeps an admitted memory admitted. -/
theorem Memory.placeWord_wf (c : Config) (imem : List InstrWord) {a : Nat} (w : InstrWord)
    (h : Memory.wf c imem = true) (ha : a + 1 < 2 ^ c.pcW) : Memory.wf c (placeWord imem a w) = true := by
  simp only [Memory.wf, programFits, decide_eq_true_eq] at *
  rw [placeWord_length]
  omega

/-! Label table. -/

theorem labelLookup_of_le (s : State) (id : LabelId) (h : labelCount s ≤ id.toNat) : labelLookup s id = .unbound := by
  have : s.lt[id.toNat]? = none := by simpa [labelCount] using h
  simp [labelLookup, this]

theorem labelLookup_of_lt (s : State) (id : LabelId) (h : id.toNat < labelCount s) :
    labelLookup s id = s.lt[id.toNat]'h := by
  have : s.lt[id.toNat]? = some (s.lt[id.toNat]'h) := List.getElem?_eq_getElem h
  simp [labelLookup, this]

/-- A bound entry is in the table. -/
theorem labelLookup_bound_mem {s : State} {id : LabelId} {a : Nat} (h : labelLookup s id = .bound a) :
    .bound a ∈ s.lt := by
  unfold labelLookup at h
  rcases hx : s.lt[id.toNat]? with _ | x
  · simp [hx] at h
  · simp only [hx, Option.getD_some] at h
    exact h ▸ List.mem_of_getElem? hx

/-! The end of a step. -/

@[simp] theorem finish_done (w : InstrWord) (next : NextPc) (wb : Option (Reg × Word)) (emit : Option Word) (s : State) :
    finish w (.done next wb emit) s = commit next wb emit s := rfl
@[simp] theorem finish_raised (w : InstrWord) (e : Exc) (s : State) : finish w (.raised e) s = raiseException w e s := rfl

/-- The checker's three outcomes for add, sub and mul. -/
theorem checkedResult_cases (op : CheckOp) (ra rb : Reg) (s : State) :
    ((check op (readReg s ra) (readReg s rb)).dir = none ∧
      checkedResult op ra rb s = .done .advance (some (ra, (check op (readReg s ra) (readReg s rb)).res)) none) ∨
    ∃ d, (check op (readReg s ra) (readReg s rb)).dir = some d ∧
      checkedResult op ra rb s = .raised (.arithmeticOverflow ra rb (readReg s ra) (readReg s rb) d) := by
  unfold checkedResult
  rcases h : (check op (readReg s ra) (readReg s rb)).dir with _ | d
  · exact .inl ⟨rfl, by simp [h]⟩
  · exact .inr ⟨d, rfl, by simp [h]⟩

/-- The three outcomes of div. -/
theorem divResult_cases (ra rb : Reg) (s : State) :
    (s32 (readReg s rb) = 0 ∧ divResult ra rb s = .raised (.divisionByZero rb)) ∨
    (s32 (readReg s ra) = intMin ∧ s32 (readReg s rb) = -1 ∧
      divResult ra rb s = .raised (.arithmeticOverflow ra rb (readReg s ra) (readReg s rb) .over)) ∨
    (s32 (readReg s rb) ≠ 0 ∧ ¬ (s32 (readReg s ra) = intMin ∧ s32 (readReg s rb) = -1) ∧
      divResult ra rb s =
        .done .advance (some (ra, u32 (tdiv (s32 (readReg s ra)) (s32 (readReg s rb))))) none) := by
  unfold divResult
  by_cases h0 : s32 (readReg s rb) = 0
  · exact .inl ⟨h0, by simp [h0]⟩
  · by_cases h1 : s32 (readReg s ra) = intMin ∧ s32 (readReg s rb) = -1
    · exact .inr (.inl ⟨h1.1, h1.2, by rw [if_neg h0, if_pos h1]⟩)
    · exact .inr (.inr ⟨h0, h1, by rw [if_neg h0, if_neg h1]⟩)

/-- The three outcomes of jnz. -/
theorem jnzResult_cases (ra : Reg) (lid : LabelId) (s : State) :
    (s32 (readReg s ra) = 0 ∧ jnzResult ra lid s = .done .advance none none) ∨
    (s32 (readReg s ra) ≠ 0 ∧ ∃ t, labelLookup s lid = .bound t ∧ jnzResult ra lid s = .done (.target t) none none) ∨
    (s32 (readReg s ra) ≠ 0 ∧ labelLookup s lid = .unbound ∧ jnzResult ra lid s = .raised (.unknownLabel lid)) := by
  unfold jnzResult
  by_cases h : s32 (readReg s ra) = 0
  · exact .inl ⟨h, by simp [h]⟩
  · rcases hl : labelLookup s lid with t | _
    · exact .inr (.inl ⟨h, t, rfl, by simp [h]⟩)
    · exact .inr (.inr ⟨h, rfl, by simp [h]⟩)

/-- What an instruction's execution returns. -/
def resultOf (i : Instr) (s : State) : Result :=
  match i with
  | .add ra rb => checkedResult .add ra rb s
  | .sub ra rb => checkedResult .sub ra rb s
  | .mul ra rb => checkedResult .mul ra rb s
  | .div ra rb => divResult ra rb s
  | .mov ra lit => .done .advance (some (ra, lit)) none
  | .out ra => .done .advance none (some (readReg s ra))
  | .jnz ra lid => jnzResult ra lid s

/-- `exec` always answers a next state: the end of the instruction with its result. -/
theorem exec_eq (i : Instr) (s : State) : exec i s = .next (finish (encode i) (resultOf i s) s) := by
  cases i <;> rfl

/-- Everything a step can do. -/
theorem step_cases (s : State) :
    (s.status ≠ .running ∧ step s = .next s) ∨
    (s.status = .running ∧ programLength s ≤ s.pc ∧ step s = .next (haltRun s)) ∨
    (s.status = .running ∧ ∃ w, imemRead s s.pc = some w ∧
      ((∃ x, decode w = .error x ∧ step s = .next (raiseException w .illegalInstruction s)) ∨
        ∃ i, decode w = .ok i ∧ step s = exec i s)) := by
  rcases hs : s.status with _ | _ | _ | _
  · exact .inl ⟨by simp, by simp [step, hs]⟩
  · right
    rcases Nat.lt_or_ge s.pc (programLength s) with h | h
    · right
      rcases hw : imemRead s s.pc with _ | w
      · exact absurd ((imemRead_eq_none_iff s s.pc).1 hw) (by omega)
      · refine ⟨rfl, w, rfl, ?_⟩
        rcases hd : decode w with x | i
        · exact .inl ⟨x, rfl, by simp [step, hs, hw, hd, Nat.not_le.2 h]⟩
        · exact .inr ⟨i, rfl, by simp [step, hs, hw, hd, Nat.not_le.2 h]⟩
    · exact .inl ⟨rfl, h, by simp [step, hs, h]⟩
  · exact .inl ⟨by simp, by simp [step, hs]⟩
  · exact .inl ⟨by simp, by simp [step, hs]⟩

end Sys2Proof.Machine
end

