-- ==== Sys2Proof/Laws/HostPort.lean ====
section
/-! SUPPORT. Everything a host move can do, said once, and what it keeps. -/

namespace Sys2Proof.Machine

/-- The start command in full. -/
theorem startCommand_eq_some {s t : State} : startCommand s = some t ↔ s.status ≠ .running ∧ t = startRun s := by
  unfold startCommand
  split <;> simp_all [eq_comm]

/-- A loaded image is admitted, and loading changes `IMEM` and `LT` only. -/
theorem loadImage_eq_some {c : Config} {p : Program} {s t : State} :
    loadImage c p s = some t ↔ p.wellFormed c = true ∧ t = { s with imem := p.imem, lt := p.lt } := by
  unfold loadImage
  split
  · rename_i hp
    exact ⟨fun h => ⟨hp, (Option.some.inj h).symm⟩, fun h => congrArg some h.2.symm⟩
  · rename_i hp
    exact ⟨nofun, fun h => absurd h.1 hp⟩

/-- A host move that exists is made outside a run: a load of admitted words or labels; the load of a failed translation,
as far as it is admitted, which is remembered; the load of a translation that succeeded; or a start where no structural
failure is remembered. -/
theorem hostMove_cases {c : Config} {m : HostMove} {y z : System} (h : hostMove c m y = some z) :
    y.core.status ≠ .running ∧
    ((∃ imem, m = .loadProgram imem ∧ programFits c imem = true ∧ z = { y with core := { y.core with imem := imem } }) ∨
      (∃ lt, m = .loadLabels lt ∧ labelsFit c lt = true ∧ z = { y with core := { y.core with lt := lt } }) ∨
      (∃ lines, m = .loadSource lines ∧ (translate lines).failure ≠ none ∧
        z = { core := (loadImage c (translationImage (translate lines)) y.core).getD y.core, translationFailed := true }) ∨
      (∃ lines s, m = .loadSource lines ∧ (translate lines).failure = none ∧
        loadImage c (translationImage (translate lines)) y.core = some s ∧ z = { core := s, translationFailed := false }) ∨
      (m = .start ∧ y.translationFailed = false ∧ z = { y with core := startRun y.core })) := by
  unfold hostMove at h
  split at h
  · cases h
  · rename_i hr
    refine ⟨hr, ?_⟩
    cases m with
    | loadProgram imem =>
      simp only at h
      split at h
      · cases h
        exact .inl ⟨imem, rfl, by assumption, rfl⟩
      · cases h
    | loadLabels lt =>
      simp only at h
      split at h
      · cases h
        exact .inr (.inl ⟨lt, rfl, by assumption, rfl⟩)
      · cases h
    | loadSource lines =>
      simp only [loadTranslation] at h
      split at h
      · rename_i hf
        cases h
        exact .inr (.inr (.inl ⟨lines, rfl, by simp [hf], rfl⟩))
      · rename_i hf
        obtain ⟨s, hs, rfl⟩ := Option.map_eq_some_iff.1 h
        exact .inr (.inr (.inr (.inl ⟨lines, s, rfl, hf, hs, rfl⟩)))
    | start =>
      simp only at h
      split at h
      · cases h
      · rename_i hf
        obtain ⟨s, hs, rfl⟩ := Option.map_eq_some_iff.1 h
        obtain ⟨-, rfl⟩ := startCommand_eq_some.1 hs
        exact .inr (.inr (.inr (.inr ⟨rfl, by simpa using hf, rfl⟩)))

/-- After a structural failure there is no start. -/
theorem hostMove_start_of_failed (c : Config) {y : System} (h : y.translationFailed = true) :
    hostMove c .start y = none := by
  simp [hostMove, h]

/-- Loading an image, or keeping the state where it is not admitted, keeps an admitted memory admitted. -/
theorem Memory.loadImage_wf {c : Config} (p : Program) {s : State} (hs : Memory.wf c s.imem = true) :
    Memory.wf c ((loadImage c p s).getD s).imem = true := by
  rcases h : loadImage c p s with _ | t
  · exact hs
  · obtain ⟨hp, rfl⟩ := loadImage_eq_some.1 h
    exact (Bool.and_eq_true_iff.1 hp).1

/-- Every host move keeps an admitted memory admitted. -/
theorem Memory.hostMove_wf {c : Config} {m : HostMove} {y z : System} (h : hostMove c m y = some z)
    (hs : Memory.wf c y.core.imem = true) : Memory.wf c z.core.imem = true := by
  obtain ⟨-, ⟨imem, -, hi, rfl⟩ | ⟨lt, -, -, rfl⟩ | ⟨lines, -, -, rfl⟩ | ⟨lines, s, -, -, hl, rfl⟩ | ⟨-, -, rfl⟩⟩ :=
    hostMove_cases h
  · exact hi
  · exact hs
  · exact Memory.loadImage_wf _ hs
  · have := Memory.loadImage_wf (c := c) (translationImage (translate lines)) hs
    rwa [hl] at this
  · exact hs

end Sys2Proof.Machine
end

