-- ==== Sys2Proof/Laws/PerInstr.lean ====
section
/-! SUPPORT. Per instruction: the fields of its word (spec/30_encoding.md R61, R63 to R67). -/

namespace Sys2Proof.Laws.EncodedFields

/-- The word carries the instruction's opcode and operands, and zero in every field its shape does not use. -/
def Statement (i : Instr) : Prop :=
  opcField (encode i) = i.opcode ∧ rsvField (encode i) = 0 ∧
  match i with
  | .add ra rb | .sub ra rb | .mul ra rb | .div ra rb =>
      raField (encode i) = ra ∧ rbField (encode i) = rb ∧ immField (encode i) = 0
  | .mov ra lit => raField (encode i) = ra ∧ rbField (encode i) = 0 ∧ immField (encode i) = lit
  | .out ra => raField (encode i) = ra ∧ rbField (encode i) = 0 ∧ immField (encode i) = 0
  | .jnz ra lid => raField (encode i) = ra ∧ rbField (encode i) = 0 ∧ immField (encode i) = lid

theorem add (ra rb : Reg) : Statement (.add ra rb) := by simp [Statement, encode, Instr.opcode]
theorem sub (ra rb : Reg) : Statement (.sub ra rb) := by simp [Statement, encode, Instr.opcode]
theorem mul (ra rb : Reg) : Statement (.mul ra rb) := by simp [Statement, encode, Instr.opcode]
theorem div (ra rb : Reg) : Statement (.div ra rb) := by simp [Statement, encode, Instr.opcode]
theorem mov (ra : Reg) (lit : Word) : Statement (.mov ra lit) := by simp [Statement, encode, Instr.opcode]
theorem out (ra : Reg) : Statement (.out ra) := by simp [Statement, encode, Instr.opcode]
theorem jnz (ra : Reg) (lid : LabelId) : Statement (.jnz ra lid) := by simp [Statement, encode, Instr.opcode]

end Sys2Proof.Laws.EncodedFields
end

