-- ==== Sys2Proof/Laws/Run.lean ====
section
/-! SUPPORT. Running the machine for a number of steps. -/

namespace Sys2Proof.Machine

theorem run_zero (s : State) : Host.Core.run Sys2Proof.core 0 s = .next s := rfl

/-- One step, then the rest. -/
theorem run_succ_of_next {s t : State} (h : step s = .next t) (k : Nat) :
    Host.Core.run Sys2Proof.core (k + 1) s = Host.Core.run Sys2Proof.core k t := by
  have h' : Sys2Proof.core.step s = .next t := h
  simp only [Host.Core.run, h']

/-- A run that answers a next state took a step first. -/
theorem run_succ_inv {s u : State} {k : Nat} (h : Host.Core.run Sys2Proof.core (k + 1) s = .next u) :
    ∃ t, step s = .next t ∧ Host.Core.run Sys2Proof.core k t = .next u := by
  rcases hs : step s with t | f | r
  · exact ⟨t, rfl, (run_succ_of_next hs k).symm.trans h⟩
  · cases f
  · have h' : Sys2Proof.core.step s = .refused r := hs
    simp only [Host.Core.run, h'] at h
    cases h

/-- What every step keeps, every run keeps. -/
theorem run_keeps {P : State → Prop} (hP : ∀ s t, P s → step s = .next t → P t) {k : Nat} {s u : State}
    (h : Host.Core.run Sys2Proof.core k s = .next u) (hs : P s) : P u := by
  induction k generalizing s with
  | zero => cases h; exact hs
  | succ k ih =>
    obtain ⟨t, ht, hu⟩ := run_succ_inv h
    exact ih hu (hP s t hs ht)

end Sys2Proof.Machine
end

