-- ==== Sys2Proof/Tests/Slice0.lean ====
section
/-! SUPPORT. Tests: expected results from spec/95_test_vectors.md or worked out by hand from the rule named, and for each
statement with hypotheses a witness that meets them, clause by clause at the clauses' boundaries. -/

namespace Sys2Proof.Tests

open Sys2Proof.Machine

/-! Helpers: small states on which ONE step is taken. -/

/-- A run in progress at address 0 with EAX and EBX set, one loaded word and a label table. -/
def atWord (w : InstrWord) (eax ebx : Int) (lt : List LabelEntry) : State :=
  { State.reset with
    regs := #v[u32 eax, u32 ebx, 0, 0, 0, 0, 0, 0], status := .running, imem := [w], lt := lt }

/-- The next state of `exec`, the state itself where there is none. -/
def after (i : Instr) (s : State) : State :=
  match exec i s with
  | .next t => t
  | .fault _ => s
  | .refused _ => s

/-- The next state of `step`. -/
def stepped (s : State) : State :=
  match step s with
  | .next t => t
  | .fault _ => s
  | .refused _ => s

/-- A register bank operand pair, no program. -/
def regsOf (eax ebx : Int) : State := { State.reset with regs := #v[u32 eax, u32 ebx, 0, 0, 0, 0, 0, 0], status := .running }

/-- A small configuration: addresses of two bits. -/
def tiny : Config := { pcW := 2, lineTerminator := [] }

/-! WellFormed: for each check a term it refuses, and one it admits. -/

theorem test_wordLegal_refuses_opcode7 : wordLegal 0xE000000000000000 = false := by decide
theorem test_wordLegal_refuses_reserved : wordLegal 0x0000000100000000 = false := by decide
theorem test_wordLegal_refuses_immediate_in_shape_R : wordLegal 0x0000000000000001 = false := by decide
theorem test_wordLegal_refuses_rb_in_shape_I : wordLegal 0x8080000000000000 = false := by decide
theorem test_wordLegal_refuses_immediate_in_shape_O : wordLegal 0xA000000000000001 = false := by decide
theorem test_wordLegal_admits_zero : wordLegal 0 = true := by decide
theorem test_programFits_at_the_bound :
    programFits tiny [0, 0, 0] = true ∧ programFits tiny [0, 0, 0, 0] = false := by decide
theorem test_entryFits_at_the_bound :
    entryFits tiny (.bound 3) = true ∧ entryFits tiny (.bound 4) = false ∧ entryFits tiny .unbound = true := by decide
theorem test_labelsFit_refuses_too_many (n : Nat) (h : n = 2 ^ 32 + 1) :
    labelsFit tiny (List.replicate n .unbound) = false := by
  have big : ¬ n ≤ 2 ^ 32 := by omega
  simp only [labelsFit, List.length_replicate, decide_eq_false big, Bool.false_and]
theorem test_labelsFit_admits_none : labelsFit tiny [] = true := by decide
theorem test_wellFormed_refuses_a_wide_label :
    Program.wellFormed tiny { imem := [0], lt := [.bound 4] } = false := by decide

/-! Decoding: one word per instruction, its bits written out from spec/30_encoding.md R61 and R63 to R67. -/

theorem test_decode_add_bits : decode (0b000#3 ++ 0b000#3 ++ 0b001#3 ++ 0#55) = .ok (.add 0 1) := by decide
theorem test_decode_sub_bits : decode (0b001#3 ++ 0b000#3 ++ 0b010#3 ++ 0#55) = .ok (.sub 0 2) := by decide
theorem test_decode_mul_bits : decode (0b010#3 ++ 0b011#3 ++ 0b110#3 ++ 0#55) = .ok (.mul 3 6) := by decide
theorem test_decode_div_bits : decode (0b011#3 ++ 0b111#3 ++ 0b001#3 ++ 0#55) = .ok (.div 7 1) := by decide
theorem test_decode_mov_bits :
    decode (0b100#3 ++ 0b111#3 ++ 0b000#3 ++ 0#23 ++ 0xFFFFFFFF#32) = .ok (.mov 7 (u32 (-1))) := by decide
theorem test_decode_out_bits : decode (0b101#3 ++ 0b010#3 ++ 0b000#3 ++ 0#55) = .ok (.out 2) := by decide
theorem test_decode_jnz_bits :
    decode (0b110#3 ++ 0b010#3 ++ 0b000#3 ++ 0#23 ++ 0x80000001#32) = .ok (.jnz 2 0x80000001) := by decide
theorem test_decode_illegal_words :
    decode 0xE000000000000000 = .error .opcode7 ∧ decode 0x0000000100000000 = .error .reservedBits ∧
    decode 0x0000000000000001 = .error .immediateBits ∧ decode 0x8080000000000000 = .error .secondRegister := by decide
/-- spec/30_encoding.md R81's examples. -/
theorem test_encode_examples :
    encode (.mov 0 5) = 0x8000000000000005 ∧ encode (.add 0 1) = 0x0080000000000000 ∧
    encode (.mov 7 (u32 (-1))) = 0x9C000000FFFFFFFF := by decide
theorem test_decodeTableWord : decodeTableWord 64 0x2100000000000000 = some (.sub 0 2) ∧
    decodeTableWord 64 0xE000000000000000 = none := by decide
/-- The placed word runs as the first instruction after reset. -/
theorem test_withFetchWord_runs :
    (stepped (State.reset.withFetchWord 64 0x8400000000000007)).pc = 1 ∧
    readReg (stepped (State.reset.withFetchWord 64 0x8400000000000007)) 1 = 7 := by decide

/-! Instructions (spec/95_test_vectors.md 2.1 to 2.4, P6, P9). -/

/-- INT_MAX + INT_MIN = −1. -/
theorem test_add_mixed_signs : s32 (readReg (after (.add 0 1) (regsOf intMax intMin)) 0) = -1 := by decide
/-- INT_MIN + INT_MIN raises UNDER and writes nothing. -/
theorem test_add_underflow :
    (after (.add 0 1) (regsOf intMin intMin)).fr.dir = 1 ∧
    (after (.add 0 1) (regsOf intMin intMin)).regs = (regsOf intMin intMin).regs := by decide
/-- −1 − INT_MIN = INT_MAX. -/
theorem test_sub_up_to_max : s32 (readReg (after (.sub 0 1) (regsOf (-1) intMin)) 0) = intMax := by decide
/-- 0 − INT_MIN raises OVER; `sub EBX EBX` at INT_MIN gives 0. -/
theorem test_sub_overflow_and_self :
    (after (.sub 0 1) (regsOf 0 intMin)).fr.dir = 0 ∧ (after (.sub 0 1) (regsOf 0 intMin)).status = .faulted ∧
    s32 (readReg (after (.sub 1 1) (regsOf 0 intMin)) 1) = 0 := by decide
/-- 65536 × −32768 = INT_MIN; 46340² fits. -/
theorem test_mul_reaches_min :
    s32 (readReg (after (.mul 0 1) (regsOf 65536 (-32768))) 0) = intMin ∧
    s32 (readReg (after (.mul 0 0) (regsOf 46340 0)) 0) = 2147395600 := by decide
/-- 65536 × 32768 raises OVER although its truncation is an int32. -/
theorem test_mul_overflow :
    (after (.mul 0 1) (regsOf 65536 32768)).fr.cause = 1 ∧
    (after (.mul 0 1) (regsOf 65536 32768)).fr.bound = 0x7FFFFFFF ∧
    s32 (readReg (after (.mul 0 1) (regsOf 65536 32768)) 0) = 65536 := by decide
/-- −7 / 2 = −3, 7 / −2 = −3. -/
theorem test_div_truncates :
    s32 (readReg (after (.div 0 1) (regsOf (-7) 2)) 0) = -3 ∧
    s32 (readReg (after (.div 0 1) (regsOf 7 (-2))) 0) = -3 := by decide
/-- 5 / 0 names EBX; INT_MIN / −1 is ArithmeticOverflow. -/
theorem test_div_exceptions :
    (after (.div 0 1) (regsOf 5 0)).fr.cause = 2 ∧ (after (.div 0 1) (regsOf 5 0)).fr.rb = 1 ∧
    (after (.div 0 1) (regsOf intMin (-1))).fr.cause = 1 := by decide
/-- `mov EDI -1`. -/
theorem test_mov_last_register : s32 (readReg (after (.mov 7 (u32 (-1))) (regsOf 0 0)) 7) = -1 := by decide
/-- `out EBX` at −3 emits −3; `out EDX` never written emits 0. -/
theorem test_out_emits :
    (after (.out 1) (regsOf 0 (-3))).out = [u32 (-3)] ∧ (after (.out 3) (regsOf 0 (-3))).out = [0] := by decide
/-- Taken on a negative value; not taken at zero whatever the label. -/
theorem test_jnz_taken_and_not :
    (after (.jnz 0 0) { regsOf (-1) 0 with pc := 4, lt := [.bound 1] }).pc = 1 ∧
    (after (.jnz 0 0) { regsOf 0 0 with pc := 4, lt := [.unbound] }).pc = 5 := by decide
/-- `jnz EAX id 5` with NLAB = 1. -/
theorem test_jnz_unknown_label :
    (after (.jnz 0 5) { regsOf 1 0 with lt := [.bound 0] }).fr.cause = 3 ∧
    (after (.jnz 0 5) { regsOf 1 0 with lt := [.bound 0] }).fr.label = 5 := by decide
/-- P12b and P12c, one step each. -/
theorem test_step_illegal_and_empty :
    (stepped (atWord 0xE000000000000000 0 0 [])).fr =
      { FaultRecord.zero with cause := 4, word := 0xE000000000000000, opc := 7 } ∧
    (stepped (startRun State.reset)).status = .halted := by decide

/-! Sink and assembler text (spec/95_test_vectors.md 2.3, P8; spec/30_encoding.md R72 to R80). -/

theorem test_sinkLine :
    sinkLine { lineTerminator := ['\n'] } (u32 (-3)) = ['-', '3', '\n'] ∧
    sinkLine { lineTerminator := [] } 0 = ['0'] ∧
    decimalText intMin = ['-', '2', '1', '4', '7', '4', '8', '3', '6', '4', '8'] := by decide
theorem test_parseLiteral_bounds :
    parseLiteral (decimalText 2147483647) = some 0x7FFFFFFF ∧ parseLiteral (decimalText 2147483648) = none ∧
    parseLiteral (decimalText (-2147483648)) = some 0x80000000 ∧ parseLiteral ['+', '7'] = some 7 ∧
    parseLiteral ['-'] = none ∧ parseLiteral [] = none ∧ parseLiteral ['0', 'x', '1'] = none := by decide
/-- The translator's failures on one line, in R79's order: opcode, count, then operands left to right. -/
theorem test_parseLine_failures :
    (parseLine "foo EAX".toList).2 = .error (.unknownOpcode "foo".toList) ∧
    (parseLine "add EAX".toList).2 = .error (.arityMismatch "add".toList 2) ∧
    (parseLine "out EAX EBX".toList).2 = .error (.arityMismatch "out".toList 1) := by decide
theorem test_parseLine_operand_failures :
    (parseLine "mov eax x".toList).2 = .error (.invalidRegister "eax".toList registerNames) ∧
    (parseLine "mov EAX x".toList).2 = .error (.invalidInteger "x".toList) ∧
    (parseLine "L:: out EAX".toList).2 = .error (.unknownOpcode "L::".toList) := by decide
theorem test_parseLine_bare_label : parseLine "  L:  ".toList = (some ['L'], .ok none) := by rfl
/-- R78 by hand: `L` appears first, on a label-only line, so it has ID 0 and is never registered; `M` has ID 1. -/
theorem test_translate_label_only_line :
    (translate ["L:".toList, "jnz EAX M".toList, "M: jnz EAX L".toList]).program = [.jnz 0 1, .jnz 0 0] ∧
    (translationImage (translate ["L:".toList, "jnz EAX M".toList, "M: jnz EAX L".toList])).lt =
      [.unbound, .bound 1] := by decide
/-- P8: the duplicate label is reported for line 4, its instruction kept, and the first binding stays. -/
theorem test_translate_duplicate_label :
    let t := translate ["mov EAX 2".toList, "L: out EAX".toList, "mov EBX -1".toList, "L: add EAX EBX".toList,
      "jnz EAX L".toList]
    translationImage t =
      { imem := [0x8000000000000002, 0xA000000000000000, 0x84000000FFFFFFFF, 0x0080000000000000, 0xC000000000000000],
        lt := [.bound 1] } ∧
    t.duplicates = [(4, ['L'])] ∧ t.failure = none := by decide
/-- P7: a name that is never defined takes an ID and stays Unbound. -/
theorem test_translate_unbound_label :
    (translationImage (translate ["jnz EAX NOWHERE".toList])).lt = [.unbound] := by decide
/-- A structural failure ends the translation, the lines before it kept. -/
theorem test_translate_failure :
    (translate ["out EAX".toList, "bad".toList, "out EBX".toList]).failure = some (2, .unknownOpcode "bad".toList) ∧
    (translate ["out EAX".toList, "bad".toList, "out EBX".toList]).program = [.out 0] := by decide

/-! Witnesses: for each statement with hypotheses, a state and operands that meet them, clause by clause. -/

theorem test_witness_DecoderAcceptsExactlyTheOpcodeTable :
    decode 0xA000000000000000 = .ok (.out 0) ∧
    (∃ row ∈ opcodeTable, row.covers 0xA000000000000000 = true ∧ row.mnemonic = "out") := by decide
theorem test_witness_EncodingRoundTripsBothWays : decode 0x9C000000FFFFFFFF = .ok (.mov 7 0xFFFFFFFF) := by decide
theorem test_witness_IllegalWordsRaiseIllegalInstruction :
    (atWord 0xE000000000000000 0 0 []).status = .running ∧
    imemRead (atWord 0xE000000000000000 0 0 []) 0 = some 0xE000000000000000 ∧
    decode 0xE000000000000000 = .error .opcode7 := by decide
theorem test_witness_DecoderPortsAreOneHot :
    (decoderPorts 0xE000000000000000).illegal = true ∧ decode 0xC800000000000000 = .ok (.jnz 2 0) ∧
    (decoderPorts 0xC800000000000000).op = 0b1000000 := by decide
theorem test_witness_StepRunsTheDecodedInstruction :
    (atWord 0xA000000000000000 5 0 []).status = .running ∧
    imemRead (atWord 0xA000000000000000 5 0 []) (atWord 0xA000000000000000 5 0 []).pc = some 0xA000000000000000 ∧
    decode 0xA000000000000000 = .ok (.out 0) := by decide
theorem test_witness_EndCheckHaltsFirst :
    (regsOf 1 2).status = .running ∧ programLength (regsOf 1 2) ≤ (regsOf 1 2).pc ∧
    programLength State.reset = 0 := by decide
theorem test_witness_NoRunNoChange : State.reset.status ≠ .running := by decide
theorem test_witness_StepIgnoresTheFaultRecordAndTheOutput :
    step (atWord 0xA000000000000000 5 0 []) = .next (stepped (atWord 0xA000000000000000 5 0 [])) ∧
    (stepped { atWord 0xA000000000000000 5 0 [] with out := [9] }).out = [9, 5] := ⟨rfl, by decide⟩
/-- The last entry of the table and the first ID beyond it. -/
theorem test_witness_FetchAndLabelLookupCoverTheirRanges :
    programLength (atWord 0 1 0 [.bound 7]) = 1 ∧ labelCount (atWord 0 1 0 [.bound 7]) = 1 ∧
    labelLookup (atWord 0 1 0 [.bound 7]) 0 = .bound 7 ∧ labelLookup (atWord 0 1 0 [.bound 7]) 1 = .unbound ∧
    s32 (readReg (atWord 0 1 0 [.bound 7]) 0) ≠ 0 := by decide
theorem test_witness_CheckerIsExact :
    (check .add (u32 intMax) 0).ovf = false ∧ (check .add (u32 intMax) 1).ovf = true ∧
    (check .sub (u32 intMin) 0).ovf = false ∧ (check .mul (u32 intMin) (u32 (-1))).ovf = true := by decide
theorem test_witness_CheckerDirectionNamesTheCrossedBound :
    (check .add (u32 intMax) 1).dir = some .over ∧ (check .add (u32 intMin) (u32 (-1))).dir = some .under ∧
    (check .sub (u32 intMin) 1).dir = some .under ∧ (check .mul 65536 32768).dir = some .over := by decide
theorem test_witness_QuotientTruncatesTowardZero : (2 : Int) ≠ 0 ∧ tdiv (-7) 2 ≠ 0 := by decide
theorem test_witness_DivOverflowsOnlyAtIntMinByMinusOne :
    u32 (-1) ≠ 0 ∧ s32 (readReg (regsOf intMin (-1)) 0) = intMin ∧ s32 (readReg (regsOf intMin (-1)) 1) = -1 := by decide
/-- The three clauses at their boundaries: a sum of INT_MAX, of INT_MIN, one above, one below. -/
theorem test_witness_AddWritesTheExactSumOrRaises :
    s32 (readReg (regsOf 2147483646 1) 0) + s32 (readReg (regsOf 2147483646 1) 1) = intMax ∧
    s32 (readReg (regsOf (-2147483647) (-1)) 0) + s32 (readReg (regsOf (-2147483647) (-1)) 1) = intMin ∧
    s32 (readReg (regsOf 2147483647 1) 0) + s32 (readReg (regsOf 2147483647 1) 1) = intMax + 1 ∧
    s32 (readReg (regsOf intMin (-1)) 0) + s32 (readReg (regsOf intMin (-1)) 1) = intMin - 1 := by decide
theorem test_witness_SubWritesTheExactDifferenceOrRaises :
    s32 (readReg (regsOf 2147483646 (-1)) 0) - s32 (readReg (regsOf 2147483646 (-1)) 1) = intMax ∧
    s32 (readReg (regsOf (-2147483647) 1) 0) - s32 (readReg (regsOf (-2147483647) 1) 1) = intMin ∧
    s32 (readReg (regsOf 2147483647 (-1)) 0) - s32 (readReg (regsOf 2147483647 (-1)) 1) = intMax + 1 ∧
    s32 (readReg (regsOf intMin 1) 0) - s32 (readReg (regsOf intMin 1) 1) = intMin - 1 := by decide
theorem test_witness_MulWritesTheExactProductOrRaises :
    s32 (readReg (regsOf intMax 1) 0) * s32 (readReg (regsOf intMax 1) 1) = intMax ∧
    s32 (readReg (regsOf 65536 (-32768)) 0) * s32 (readReg (regsOf 65536 (-32768)) 1) = intMin ∧
    s32 (readReg (regsOf 65536 32768) 0) * s32 (readReg (regsOf 65536 32768) 1) = intMax + 1 ∧
    s32 (readReg (regsOf 3 (-715827883)) 0) * s32 (readReg (regsOf 3 (-715827883)) 1) = intMin - 1 := by decide
/-- Next to the two exceptions: INT_MIN / 1 and (INT_MIN + 1) / −1 run, a zero divisor and INT_MIN / −1 do not. -/
theorem test_witness_DivWritesTheQuotientOrRaises :
    (s32 (readReg (regsOf intMin 1) 1) ≠ 0 ∧
      ¬ (s32 (readReg (regsOf intMin 1) 0) = intMin ∧ s32 (readReg (regsOf intMin 1) 1) = -1)) ∧
    ¬ (s32 (readReg (regsOf (-2147483647) (-1)) 0) = intMin ∧ s32 (readReg (regsOf (-2147483647) (-1)) 1) = -1) ∧
    s32 (readReg (regsOf 5 0) 1) = 0 ∧
    (s32 (readReg (regsOf intMin (-1)) 0) = intMin ∧ s32 (readReg (regsOf intMin (-1)) 1) = -1) := by decide
theorem test_witness_JnzJumpsWhenNonZero :
    s32 (readReg (regsOf 0 0) 0) = 0 ∧ s32 (readReg (regsOf (-1) 0) 0) ≠ 0 ∧
    labelLookup { regsOf 1 0 with lt := [.bound 9] } 0 = .bound 9 ∧
    labelLookup { regsOf 1 0 with lt := [.bound 9] } 1 = .unbound := by decide
theorem test_witness_InstructionFrame :
    exec (.mov 2 5) (regsOf 1 2) = .next (after (.mov 2 5) (regsOf 1 2)) ∧ writesReg (.mov 2 5) ≠ some 0 ∧
    (after (.div 0 1) (regsOf 5 0)).status = .faulted := ⟨rfl, by decide, by decide⟩
theorem test_witness_InstructionReadsOnlyItsOperands :
    regsOf 1 2 = { regsOf 1 3 with regs := (regsOf 1 2).regs } ∧
    (∀ r ∈ readsRegs (.out 0), readReg (regsOf 1 2) r = readReg (regsOf 1 3) r) ∧
    exec (.out 0) (regsOf 1 2) = .next (after (.out 0) (regsOf 1 2)) ∧
    exec (.out 0) (regsOf 1 3) = .next (after (.out 0) (regsOf 1 3)) := ⟨by decide, by decide, rfl, rfl⟩
theorem test_witness_ArithmeticNeverWrapsSilently :
    exec (.mul 0 1) (regsOf 3 (-4)) = .next (after (.mul 0 1) (regsOf 3 (-4))) ∧
    exactOf (.mul 0 1) (regsOf 3 (-4)) = some (-12) ∧
    exactOf (.add 0 1) (regsOf intMax 1) = some (intMax + 1) := ⟨rfl, by decide, by decide⟩
theorem test_witness_RegistersAreSeparate : ∀ i, readReg (regsOf 0 0) i = readReg State.reset i := by decide
theorem test_witness_ExceptionExactlyOnItsCondition :
    Raises (regsOf 5 0) (.div 0 1) (.divisionByZero 1) ∧ (∀ e, ¬ Raises (regsOf 5 0) (.mov 0 1) e) :=
  ⟨.divZero 0 1 (by decide), fun e h => by cases h⟩
theorem test_witness_StepFaultsPrecisely :
    (atWord 0x6080000000000000 5 0 []).status = .running ∧
    imemRead (atWord 0x6080000000000000 5 0 []) 0 = some 0x6080000000000000 ∧
    Raises (atWord 0x6080000000000000 5 0 []) (.div 0 1) (.divisionByZero 1) ∧
    wordRaises (atWord 0xE000000000000000 5 0 []) 0xE000000000000000 .illegalInstruction :=
  ⟨by decide, by decide, .divZero 0 1 (by decide), rfl⟩
/-- At the boundary `a` = N. -/
theorem test_witness_JumpTargetsAreUnchecked :
    (atWord 0xC000000000000000 1 0 [.bound 1]).status = .running ∧
    imemRead (atWord 0xC000000000000000 1 0 [.bound 1]) 0 = some (encode (.jnz 0 0)) ∧
    s32 (readReg (atWord 0xC000000000000000 1 0 [.bound 1]) 0) ≠ 0 ∧
    labelLookup (atWord 0xC000000000000000 1 0 [.bound 1]) 0 = .bound 1 ∧
    programLength (atWord 0xC000000000000000 1 0 [.bound 1]) ≤ 1 ∧
    (['L'], LabelEntry.bound 0) ∈ (translate ["L: out EAX".toList]).names := by decide
/-- P10's loop. -/
theorem test_witness_SelfJumpRunsForever :
    (atWord 0xC000000000000000 1 0 [.bound 0]).status = .running ∧
    imemRead (atWord 0xC000000000000000 1 0 [.bound 0]) 0 = some (encode (.jnz 0 0)) ∧
    s32 (readReg (atWord 0xC000000000000000 1 0 [.bound 0]) 0) ≠ 0 ∧
    labelLookup (atWord 0xC000000000000000 1 0 [.bound 0]) 0 = .bound 0 := by decide
theorem test_witness_BranchUnitDrivesJnz :
    (branchUnit true (readReg (regsOf 1 0) 0) true 3).selTarget = true ∧
    (branchUnit true (readReg (regsOf 1 0) 0) false 3).unknownLabel = true ∧
    (branchUnit true (readReg (regsOf 0 0) 0) true 3).selTarget = false ∧
    (branchUnit true (readReg (regsOf 0 0) 0) true 3).unknownLabel = false := by decide
/-- The last instruction of the longest program that a two-bit `pc` admits. -/
theorem test_witness_ProgramCounterNeverWraps :
    State.Inv tiny { regsOf 0 0 with pc := 2, imem := [0, 0, 0] } ∧
    step { regsOf 0 0 with pc := 2, imem := [0, 0, 0] } = .next (stepped { regsOf 0 0 with pc := 2, imem := [0, 0, 0] }) :=
  ⟨⟨by decide, by decide, by decide, by decide, fun _ => rfl, fun h => by cases h⟩, rfl⟩
/-- The other two outcomes: the end of that program, and a jump to the highest address. -/
theorem test_witness_ProgramCounterNeverWraps_end_and_jump :
    (stepped { regsOf 0 0 with pc := 3, imem := [0, 0, 0] }).pc = 3 ∧
    (stepped { regsOf 0 0 with pc := 3, imem := [0, 0, 0] }).status ≠ .running ∧
    imemRead (atWord 0xC000000000000000 1 0 [.bound 3]) 0 = some (encode (.jnz 0 0)) ∧
    (stepped (atWord 0xC000000000000000 1 0 [.bound 3])).pc = 3 := by decide
theorem test_witness_DatapathComputesTheStep : (atWord 0x0080000000000000 intMax 1 []).status = .running := by decide
theorem test_witness_StartClearsTheCore :
    State.reset.status = .idle ∧ (stepped (regsOf 1 2)).status = .halted ∧
    (stepped (atWord 0xE000000000000000 0 0 [])).status = .faulted := by decide
theorem test_witness_HostActsBetweenRunsOnly :
    (regsOf 0 0).status = .running ∧ System.reset.core.status ≠ .running ∧ (translate ["bad".toList]).failure ≠ none := by
  decide
/-- After a failed source neither the partial program nor a raw load is started; a source that translates is. -/
theorem test_witness_NoStartAfterAStructuralFailure :
    let failed := hostMove tiny (.loadSource ["out EAX".toList, "bad".toList]) System.reset
    System.reset.translationFailed = false ∧ failed.map System.translationFailed = some true ∧
    failed.map (fun y => y.core.imem) = some [0xA000000000000000] ∧
    (failed.bind (hostMove tiny .start)) = none ∧
    ((failed.bind (hostMove tiny (.loadProgram [0]))).bind (hostMove tiny .start)) = none ∧
    ((failed.bind (hostMove tiny (.loadSource ["out EBX".toList]))).bind (hostMove tiny .start)).map
      (fun y => (y.core.status, y.core.imem)) = some (.running, [0xA400000000000000]) := by decide
theorem test_witness_RepeatedRunsAgree :
    (regsOf 1 2).imem = State.reset.imem ∧ (regsOf 1 2).lt = State.reset.lt := by decide
theorem test_witness_ProgramIsImmutableDuringARun :
    Host.Core.run Sys2Proof.core 1 (regsOf 1 2) = .next (stepped (regsOf 1 2)) ∧ (regsOf 1 2).status = .running :=
  ⟨rfl, by decide⟩
theorem test_witness_OutputOnlyGrowsByOut :
    (atWord 0xA000000000000000 5 0 []).status = .running ∧
    imemRead (atWord 0xA000000000000000 5 0 []) 0 = some (encode (.out 0)) ∧
    (stepped (atWord 0xA000000000000000 5 0 [])).out = [5] := by decide
theorem test_witness_StatusTransitions :
    (stepped (regsOf 1 2)).status ≠ (regsOf 1 2).status ∧ startCommand State.reset = some (startRun State.reset) ∧
    hostMove tiny .start System.reset = some { System.reset with core := startRun State.reset } ∧
    hostMove tiny (.loadProgram [0, 0, 0]) System.reset =
      some { System.reset with core := { State.reset with imem := [0, 0, 0] } } ∧
    hostMove tiny (.loadProgram [0, 0, 0, 0]) System.reset = none := by decide
/-- One running state for each of the three ways. -/
theorem test_witness_RunEndsInExactlyOneWay :
    (regsOf 1 2).status = .running ∧ (stepped (regsOf 1 2)).status = .halted ∧
    (stepped (atWord 0xE000000000000000 0 0 [])).status = .faulted ∧
    stepped (atWord 0xC000000000000000 1 0 [.bound 0]) = atWord 0xC000000000000000 1 0 [.bound 0] := by decide
theorem test_witness_StepKeepsTheInvariant :
    State.Inv tiny (atWord 0xC000000000000000 1 0 [.bound 3]) ∧
    (stepped (atWord 0xC000000000000000 1 0 [.bound 3])).pc = 3 :=
  ⟨⟨by decide, by decide, by decide, by decide, fun _ => rfl, fun h => by cases h⟩, by decide⟩
theorem test_witness_EveryReachableStateMeetsTheInvariant :
    Reachable tiny { System.reset with core := startRun State.reset } :=
  .host .start .reset (by decide)
theorem test_witness_StepKeepsTheRunInvariant :
    State.RunInv (atWord 0xE000000000000000 0 0 []) ∧ (stepped (atWord 0xE000000000000000 0 0 [])).status = .faulted :=
  ⟨⟨fun h => (by cases h), fun h => (by cases h)⟩, by decide⟩
theorem test_witness_StartsMeetTheRunInvariant :
    State.Inv tiny State.reset ∧
    hostMove tiny .start System.reset = some { System.reset with core := startRun State.reset } :=
  ⟨⟨by decide, by decide, by decide, by decide, fun _ => rfl, fun h => by cases h⟩, by decide⟩
theorem test_witness_LiteralTokensAreInt32 :
    parseInteger ['-', '7'] = some (-7) ∧ literalOperand ['+', '7'] = .ok 7 ∧
    literalOperand ['-'] = .error (.invalidInteger ['-']) := by decide
theorem test_witness_CanonicalTextTranslatesBack :
    (['L'] ≠ [] ∧ ':' ∉ ['L'] ∧ ['L'].all (fun ch => isBlank ch == false) = true) ∧
    canonicalText (some ['L']) (.jnz 0 ['M']) = "L: jnz EAX M".toList ∧
    canonicalText none (.plain (.mov 1 (u32 (-5)))) = "mov EBX -5".toList := by decide
theorem test_witness_FirstLabelBindingIsKept :
    (registerLabel 1 (some ['L']) (mentionLabel (some ['L']) emptyTranslation)).names[0]? = some (['L'], LabelEntry.bound 0) := by decide
/-- A label-only line, a forward reference and a duplicate. -/
theorem test_witness_LabelTableNamesTheFilesLabels :
    (translate ["L:".toList, "M: jnz EAX L".toList, "M: out EAX".toList]).failure = none ∧
    firstAppearances (["L:".toList, "M: jnz EAX L".toList, "M: out EAX".toList].flatMap lineNames) = [['L'], ['M']] ∧
    (builtLines ["L:".toList, "M: jnz EAX L".toList, "M: out EAX".toList]).length = 2 ∧
    entryOf (builtLines ["L:".toList, "M: jnz EAX L".toList, "M: out EAX".toList]) ['M'] = .bound 0 ∧
    entryOf (builtLines ["L:".toList, "M: jnz EAX L".toList, "M: out EAX".toList]) ['L'] = .unbound := by decide
theorem test_witness_TranslatedImageIsLegal :
    (translationImage (translate ["out EBX".toList])).imem[0]? = some 0xA400000000000000 := by decide

end Sys2Proof.Tests
end

/-! PROOFS. Words: a legal word and its instruction determine each other, and the `illegal` wire says which words are
legal (spec/30_encoding.md R68, R69, R81). -/

namespace Sys2Proof.Machine

/-- Opcode bit 2 separates shape R from the others (spec/30_encoding.md R61). -/
theorem getLsbD_two_iff (opc : BitVec 3) : opc.getLsbD 2 = true ↔ 4 ≤ opc.toNat := by
  revert opc
  decide

/-- The wire's field tests are those of `decode`, in its order. -/
theorem illegalWire_eq_false_iff (w : InstrWord) :
    illegalWire w = false ↔
      opcField w ≠ 7 ∧ rsvField w = 0 ∧ ¬ ((opcField w).toNat ≤ 3 ∧ immField w ≠ 0) ∧
      ¬ (4 ≤ (opcField w).toNat ∧ rbField w ≠ 0) ∧ ¬ (opcField w = 5 ∧ immField w ≠ 0) := by
  have hR : (opcField w).getLsbD 2 = false ↔ (opcField w).toNat ≤ 3 := by
    rw [← Bool.not_eq_true, getLsbD_two_iff]
    omega
  simp only [illegalWire, Bool.or_eq_false_iff, Bool.and_eq_false_iff, beq_eq_false_iff_ne, bne_eq_false_iff_eq,
    Bool.not_eq_false', ← hR, ← getLsbD_two_iff]
  simp only [not_and_or, not_not, Bool.not_eq_true, Bool.not_eq_false, and_assoc, ne_eq]

theorem legal_of_decode_ok {w : InstrWord} {i : Instr} (h : decode w = .ok i) : illegalWire w = false := by
  rw [illegalWire_eq_false_iff]
  simp only [decode] at h
  split_ifs at h with h7 hrsv himm hrb hout
  exact ⟨h7, not_not.1 hrsv, himm, hrb, hout⟩

theorem decode_of_legal {w : InstrWord} (h : illegalWire w = false) :
    decode w = instrOfFields (opcField w) (raField w) (rbField w) (immField w) := by
  obtain ⟨h7, hrsv, himm, hrb, hout⟩ := (illegalWire_eq_false_iff w).1 h
  simp only [decode]
  rw [if_neg h7, if_neg (not_not.2 hrsv), if_neg himm, if_neg hrb, if_neg hout]

/-- Below 7 every opcode selects an instruction, and that assembles to the same fields when those its shape leaves out
are zero (spec/30_encoding.md R61, R63). -/
theorem instrOfFields_spec {opc : BitVec 3} (ra : Reg) {rb : Reg} {imm : BitVec 32} (h7 : opc ≠ 7)
    (himm : ¬ (opc.toNat ≤ 3 ∧ imm ≠ 0)) (hrb : ¬ (4 ≤ opc.toNat ∧ rb ≠ 0)) (hout : ¬ (opc = 5 ∧ imm ≠ 0)) :
    ∃ i, instrOfFields opc ra rb imm = .ok i ∧ encode i = encodeFields opc ra rb imm := by
  have hopc : opc = 0 ∨ opc = 1 ∨ opc = 2 ∨ opc = 3 ∨ opc = 4 ∨ opc = 5 ∨ opc = 6 := by
    clear himm hrb hout
    revert opc
    decide
  have himm' : opc.toNat ≤ 3 ∨ opc = 5 → imm = 0 := by tauto
  have hrb' : 4 ≤ opc.toNat → rb = 0 := by tauto
  rcases hopc with rfl | rfl | rfl | rfl | rfl | rfl | rfl
  · exact ⟨.add ra rb, rfl, by simp [encode, himm']⟩
  · exact ⟨.sub ra rb, rfl, by simp [encode, himm']⟩
  · exact ⟨.mul ra rb, rfl, by simp [encode, himm']⟩
  · exact ⟨.div ra rb, rfl, by simp [encode, himm']⟩
  · exact ⟨.mov ra imm, rfl, by simp [encode, hrb']⟩
  · exact ⟨.out ra, rfl, by simp [encode, himm', hrb']⟩
  · exact ⟨.jnz ra imm, rfl, by simp [encode, hrb']⟩

/-- A word is illegal by the wire and for the decoder, or legal for both and the word of its instruction. -/
theorem decode_cases (w : InstrWord) :
    (illegalWire w = true ∧ ∃ x, decode w = .error x) ∨
    (illegalWire w = false ∧ ∃ i, decode w = .ok i ∧ encode i = w) := by
  rcases h : illegalWire w with _ | _
  · obtain ⟨h7, hrsv, himm, hrb, hout⟩ := (illegalWire_eq_false_iff w).1 h
    obtain ⟨i, hi, he⟩ := instrOfFields_spec (raField w) h7 himm hrb hout
    exact .inr ⟨rfl, i, (decode_of_legal h).trans hi, he.trans (encodeFields_of_fields w hrsv)⟩
  · refine .inl ⟨rfl, ?_⟩
    rcases hd : decode w with x | i
    · exact ⟨x, rfl⟩
    · exact absurd (legal_of_decode_ok hd) (by simp [h])

/-- Only one word decodes to an instruction (spec/30_encoding.md R81). -/
theorem encode_of_decode {w : InstrWord} {i : Instr} (h : decode w = .ok i) : encode i = w := by
  obtain ⟨-, x, hx⟩ | ⟨-, j, hj, he⟩ := decode_cases w
  · cases hx.symm.trans h
  · cases hj.symm.trans h
    exact he

theorem illegal_of_decode_error {w : InstrWord} {x : IllegalWord} (h : decode w = .error x) :
    illegalWire w = true := by
  obtain ⟨hw, -⟩ | ⟨-, i, hi, -⟩ := decode_cases w
  · exact hw
  · cases hi.symm.trans h

theorem legal_encode (i : Instr) : illegalWire (encode i) = false := by
  cases i <;> simp [illegalWire, encode]

end Sys2Proof.Machine

/-! PROOFS. The overflow checker is exact (spec/40_arithmetic.md R101 to R105), and the divider's patterns are those of
the rules' integers (R109 to R112). -/

namespace Sys2Proof.Machine

theorem trunc32_eq_self_iff (v : Int) : trunc32 v = v ↔ intMin ≤ v ∧ v ≤ intMax := by
  unfold trunc32 intMin intMax
  omega

theorem s32_add (a b : Word) : s32 (a + b) = trunc32 (s32 a + s32 b) := by
  rw [trunc32_eq_bmod]
  exact BitVec.toInt_add a b

theorem s32_sub (a b : Word) : s32 (a - b) = trunc32 (s32 a - s32 b) := by
  rw [trunc32_eq_bmod]
  exact BitVec.toInt_sub

/-- The double-width product is exact (R103): no product of two int32 values leaves 64 bits. -/
theorem toInt_sext64_mul (a b : Word) : (sext64 a * sext64 b).toInt = s32 a * s32 b := by
  have ha := s32_range a
  have hb := s32_range b
  have h : |s32 a * s32 b| ≤ 2147483648 * 2147483648 := by
    rw [abs_mul]
    exact mul_le_mul (abs_le.2 ⟨ha.1, by omega⟩) (abs_le.2 ⟨hb.1, by omega⟩) (abs_nonneg _) (by decide)
  obtain ⟨hl, hu⟩ := abs_le.1 h
  rw [BitVec.toInt_mul, toInt_sext64, toInt_sext64, Int.bmod_eq_of_le] <;> norm_num at * <;> omega

theorem s32_setWidth (p : BitVec 64) : s32 (p.setWidth 32) = trunc32 p.toInt := by
  rw [trunc32_eq_bmod, s32, BitVec.toInt_setWidth, BitVec.toInt_eq_toNat_bmod, Int.bmod_bmod_of_dvd (by decide)]

/-- R101's predicate says that the sum is truncated. -/
theorem add_ovf_iff (a b : Word) : (check .add a b).ovf = true ↔ trunc32 (s32 a + s32 b) ≠ s32 a + s32 b := by
  have ha := s32_range a
  have hb := s32_range b
  rw [(check_add a b).2, Bool.and_eq_true, beq_iff_eq, bne_iff_ne]
  simp only [signBit_eq_neg, s32_add, ne_eq, decide_eq_decide]
  unfold trunc32
  omega

/-- R102's predicate says that the difference is truncated. -/
theorem sub_ovf_iff (a b : Word) : (check .sub a b).ovf = true ↔ trunc32 (s32 a - s32 b) ≠ s32 a - s32 b := by
  have ha := s32_range a
  have hb := s32_range b
  have h : (check .sub a b).ovf = ((signBit a != signBit b) && (signBit a != signBit (a - b))) := by
    rw [(check_sub a b).2]
    simp only [BitVec.getLsbD_and, BitVec.getLsbD_xor, Bool.bne_eq_xor, signBit]
  rw [h, Bool.and_eq_true, bne_iff_ne, bne_iff_ne]
  simp only [signBit_eq_neg, s32_sub, ne_eq, decide_eq_decide]
  unfold trunc32
  omega

/-- R103's predicate says that the product is truncated. -/
theorem mul_ovf_iff (a b : Word) : (check .mul a b).ovf = true ↔ trunc32 (s32 a * s32 b) ≠ s32 a * s32 b := by
  rw [(check_mul a b).2, bne_iff_ne, ne_eq, ← BitVec.toInt_inj, toInt_sext64, s32_setWidth, toInt_sext64_mul]

/-- R104: an overflow is reported exactly when the exact result is no int32. -/
theorem check_ovf_iff (op : CheckOp) (a b : Word) :
    (check op a b).ovf = true ↔ ¬ (intMin ≤ exactResult op a b ∧ exactResult op a b ≤ intMax) := by
  rw [← trunc32_eq_self_iff]
  cases op with
  | add => exact add_ovf_iff a b
  | sub => exact sub_ovf_iff a b
  | mul => exact mul_ovf_iff a b

/-- R105: a direction names the bound that the exact result crosses. -/
theorem exactResult_of_dir {op : CheckOp} {a b : Word} {d : Direction} (h : (check op a b).dir = some d) :
    d = .over ∧ exactResult op a b > intMax ∨ d = .under ∧ exactResult op a b < intMin := by
  rw [check_dir] at h
  split at h
  · rename_i hovf
    have hout := (check_ovf_iff op a b).1 hovf
    obtain rfl := Option.some.inj h
    unfold directionOf
    split
    · exact .inl ⟨rfl, by assumption⟩
    · exact .inr ⟨rfl, by omega⟩
  · cases h

/-- R111's quotient is Lean's truncating division. -/
theorem tdiv_eq (a b : Int) : tdiv a b = Int.tdiv a b := by
  rw [← Int.sign_mul_natAbs (Int.tdiv a b), Int.sign_tdiv, Int.natAbs_tdiv, tdiv]
  split
  · rw [Nat.div_eq_of_lt (by assumption)]
    simp
  · rfl

theorem u32_tdiv (a b : Word) : u32 (tdiv (s32 a) (s32 b)) = a.sdiv b := by
  apply BitVec.eq_of_toInt_eq
  rw [tdiv_eq, BitVec.toInt_sdiv]
  exact BitVec.toInt_ofInt _

theorem s32_eq_intMin_iff (a : Word) : s32 a = intMin ↔ a = BitVec.intMin 32 :=
  BitVec.toInt_inj (y := BitVec.intMin 32)

theorem s32_eq_neg_one_iff (a : Word) : s32 a = -1 ↔ a = BitVec.allOnes 32 :=
  BitVec.toInt_inj (y := BitVec.allOnes 32)

end Sys2Proof.Machine

/-! PROOFS. What an instruction and a step can do, said once: `exec_next_cases` and `transition_of_step` are the case
analyses that the statements below cite. -/

namespace Sys2Proof.Machine

/-- What instruction `i` may commit in state `s`: it writes its register and no other, emits only as `out`, and advances
the `pc` unless it is a taken jnz on a bound label. -/
structure Completes (i : Instr) (s : State) (next : NextPc) (wb : Option (Reg × Word)) (emit : Option Word) : Prop where
  writes : wb.map Prod.fst = writesReg i
  emits  : emit = none ∨ ∃ ra, i = .out ra ∧ emit = some (readReg s ra)
  jumps  : next = .advance ∨ ∃ ra lid a, i = .jnz ra lid ∧ s32 (readReg s ra) ≠ 0 ∧ labelLookup s lid = .bound a ∧
    next = .target a

/-- A result that `i` may return in `s`: a commit it may make, or an exception whose condition holds. -/
def Result.Meets (r : Result) (i : Instr) (s : State) : Prop :=
  match r with
  | .done next wb emit => Completes i s next wb emit
  | .raised e => Raises s i e

theorem Completes.of_write {i : Instr} {s : State} {ra : Reg} (h : writesReg i = some ra) (v : Word) :
    Completes i s .advance (some (ra, v)) none :=
  ⟨h.symm, .inl rfl, .inl rfl⟩

theorem checkedResult_meets (op : CheckOp) (ra rb : Reg) (s : State) (i : Instr) (hw : writesReg i = some ra)
    (hover : exactResult op (readReg s ra) (readReg s rb) > intMax →
      Raises s i (.arithmeticOverflow ra rb (readReg s ra) (readReg s rb) .over))
    (hunder : exactResult op (readReg s ra) (readReg s rb) < intMin →
      Raises s i (.arithmeticOverflow ra rb (readReg s ra) (readReg s rb) .under)) :
    (checkedResult op ra rb s).Meets i s := by
  obtain ⟨-, hr⟩ | ⟨d, hd, hr⟩ := checkedResult_cases op ra rb s <;> rw [hr]
  · exact .of_write hw _
  · obtain ⟨rfl, h⟩ | ⟨rfl, h⟩ := exactResult_of_dir hd
    · exact hover h
    · exact hunder h

theorem divResult_meets (ra rb : Reg) (s : State) : (divResult ra rb s).Meets (.div ra rb) s := by
  obtain ⟨h0, hr⟩ | ⟨ha, hb, hr⟩ | ⟨-, -, hr⟩ := divResult_cases ra rb s <;> rw [hr]
  · exact Raises.divZero ra rb ((s32_eq_zero_iff _).1 h0)
  · exact Raises.divOver ra rb ha hb
  · exact .of_write rfl _

theorem jnzResult_meets (ra : Reg) (lid : LabelId) (s : State) : (jnzResult ra lid s).Meets (.jnz ra lid) s := by
  obtain ⟨-, hr⟩ | ⟨h, t, hl, hr⟩ | ⟨h, hl, hr⟩ := jnzResult_cases ra lid s <;> rw [hr]
  · exact ⟨rfl, .inl rfl, .inl rfl⟩
  · exact ⟨rfl, .inl rfl, .inr ⟨ra, lid, t, rfl, h, hl, rfl⟩⟩
  · exact Raises.unbound ra lid (fun h0 => h ((s32_eq_zero_iff _).2 h0)) hl

theorem resultOf_meets (i : Instr) (s : State) : (resultOf i s).Meets i s := by
  cases i with
  | add ra rb => exact checkedResult_meets .add ra rb s _ rfl (.addOver ra rb) (.addUnder ra rb)
  | sub ra rb => exact checkedResult_meets .sub ra rb s _ rfl (.subOver ra rb) (.subUnder ra rb)
  | mul ra rb => exact checkedResult_meets .mul ra rb s _ rfl (.mulOver ra rb) (.mulUnder ra rb)
  | div ra rb => exact divResult_meets ra rb s
  | mov ra lit => exact .of_write rfl lit
  | out ra => exact ⟨rfl, .inr ⟨ra, rfl, rfl⟩, .inl rfl⟩
  | jnz ra lid => exact jnzResult_meets ra lid s

/-- The two ends of an instruction: its commit, or trap entry. -/
theorem exec_next_cases {i : Instr} {s t : State} (h : exec i s = .next t) :
    (∃ next wb emit, Completes i s next wb emit ∧ t = commit next wb emit s) ∨
    ∃ e, Raises s i e ∧ t = raiseException (encode i) e s := by
  rw [exec_eq] at h
  cases h
  have hm := resultOf_meets i s
  rcases hr : resultOf i s with ⟨next, wb, emit⟩ | e <;> rw [hr] at hm
  · exact .inl ⟨next, wb, emit, hm, rfl⟩
  · exact .inr ⟨e, hm, rfl⟩

/-- The four ways of a step: no run, the end of the program, an exception of the fetched word, or its instruction. -/
inductive Transition (s : State) : State → Prop where
  | noRun (h : s.status ≠ .running) : Transition s s
  | halt (h : s.status = .running) (hpc : programLength s ≤ s.pc) : Transition s (haltRun s)
  | trap {w e} (h : s.status = .running) (hw : imemRead s s.pc = some w) (he : wordRaises s w e) :
      Transition s (raiseException w e s)
  | instr {i next wb emit} (h : s.status = .running) (hw : imemRead s s.pc = some (encode i))
      (hc : Completes i s next wb emit) : Transition s (commit next wb emit s)

theorem transition_of_step {s t : State} (h : step s = .next t) : Transition s t := by
  obtain ⟨hs, he⟩ | ⟨hs, hpc, he⟩ | ⟨hs, w, hw, ⟨x, hd, he⟩ | ⟨i, hd, he⟩⟩ := step_cases s
  · cases he.symm.trans h
    exact .noRun hs
  · cases he.symm.trans h
    exact .halt hs hpc
  · cases he.symm.trans h
    exact .trap hs hw (by simp [wordRaises, hd])
  · obtain rfl := (encode_of_decode hd).symm
    obtain ⟨next, wb, emit, hc, rfl⟩ | ⟨e, hr, rfl⟩ := exec_next_cases (he.symm.trans h)
    · exact .instr hs hw hc
    · exact .trap hs hw (by simpa [wordRaises, hd] using hr)

end Sys2Proof.Machine

/-! PROOFS. The core's invariant: each state operation keeps it, so every step and every host move does
(spec/10_state.md R25 to R29, R34). -/

namespace Sys2Proof.Machine

theorem causeCode_range (e : Exc) : 1 ≤ (causeCode e).toNat ∧ (causeCode e).toNat ≤ 4 := by
  cases e <;> simp [causeCode]

@[simp] theorem faultRecord_pc (pc : Nat) (w : InstrWord) (e : Exc) : (faultRecord pc w e).pc = pc := by
  cases e <;> rfl

@[simp] theorem faultRecord_cause (pc : Nat) (w : InstrWord) (e : Exc) : (faultRecord pc w e).cause = causeCode e := by
  cases e <;> rfl

theorem reset_inv (c : Config) : State.reset.Inv c :=
  { program := Memory.reset_wf c
    labels := by simp [labelsFit, State.reset]
    pcFits := Nat.two_pow_pos _
    frPc := Nat.two_pow_pos _
    clear := fun _ => rfl
    cause := nofun }

section
variable {c : Config} {s : State}

/-- The end of the program is itself an address (spec/10_state.md R26). -/
theorem State.Inv.programLength_lt (h : s.Inv c) : programLength s < 2 ^ c.pcW := by
  simpa [Memory.wf, programFits, programLength] using h.program

/-- A bound label's target is an address (spec/20_memory.md R46). -/
theorem State.Inv.bound_lt (h : s.Inv c) {lid : LabelId} {a : Nat} (hl : labelLookup s lid = .bound a) :
    a < 2 ^ c.pcW := by
  have hall := (Bool.and_eq_true_iff.1 h.labels).2
  simpa [entryFits] using List.all_eq_true.1 hall _ (labelLookup_bound_mem hl)

/-- A completed instruction leaves the `pc` one on, so at most at N, or at its bound label. -/
theorem Completes.nextPc_lt {i : Instr} {next : NextPc} {wb : Option (Reg × Word)} {emit : Option Word}
    (hc : Completes i s next wb emit) (h : s.Inv c) (hpc : s.pc < programLength s) :
    nextPc s.pc next < 2 ^ c.pcW := by
  obtain rfl | ⟨ra, lid, a, -, -, hl, rfl⟩ := hc.jumps
  · exact Nat.lt_of_le_of_lt hpc h.programLength_lt
  · exact h.bound_lt hl

theorem State.Inv.haltRun (h : s.Inv c) (hs : s.status = .running) : (haltRun s).Inv c :=
  { h with
    clear := fun _ => h.clear (by simp [hs])
    cause := nofun }

theorem State.Inv.raiseException (h : s.Inv c) (w : InstrWord) (e : Exc) : (raiseException w e s).Inv c :=
  { program := h.program
    labels := h.labels
    pcFits := h.pcFits
    frPc := by simpa using h.pcFits
    clear := fun hne => absurd rfl hne
    cause := fun _ => by simpa using causeCode_range e }

/-- A commit keeps `FR` and `STATUS`, so only the new `pc` counts. -/
theorem State.Inv.commit (h : s.Inv c) (hs : s.status = .running) {next : NextPc} (wb : Option (Reg × Word))
    (emit : Option Word) (hpc : nextPc s.pc next < 2 ^ c.pcW) : (commit next wb emit s).Inv c :=
  { program := by simpa using h.program
    labels := by simpa using h.labels
    pcFits := hpc
    frPc := by simpa using h.frPc
    clear := by simpa using h.clear
    cause := by simp [hs] }

theorem State.Inv.startRun (h : s.Inv c) : (startRun s).Inv c :=
  { program := h.program
    labels := h.labels
    pcFits := Nat.two_pow_pos _
    frPc := Nat.two_pow_pos _
    clear := fun _ => rfl
    cause := nofun }

theorem State.Inv.load (h : s.Inv c) {imem : List InstrWord} {lt : List LabelEntry} (hi : programFits c imem = true)
    (hl : labelsFit c lt = true) : State.Inv c { s with imem := imem, lt := lt } :=
  { h with program := hi, labels := hl }

theorem State.Inv.loadImage (h : s.Inv c) {p : Program} {t : State} (ht : loadImage c p s = some t) : t.Inv c := by
  obtain ⟨hp, rfl⟩ := loadImage_eq_some.1 ht
  obtain ⟨hi, hl⟩ := Bool.and_eq_true_iff.1 hp
  exact h.load hi hl

end

theorem step_keeps_inv {c : Config} {s t : State} (h : s.Inv c) (ht : step s = .next t) : t.Inv c := by
  cases transition_of_step ht with
  | noRun => exact h
  | halt hs => exact h.haltRun hs
  | trap => exact h.raiseException _ _
  | instr hs hw hc => exact h.commit hs _ _ (hc.nextPc_lt h (imemRead_lt hw))

theorem hostMove_keeps_inv {c : Config} {m : HostMove} {y z : System} (h : y.core.Inv c)
    (hz : hostMove c m y = some z) : z.core.Inv c := by
  obtain ⟨-, ⟨imem, -, hi, rfl⟩ | ⟨lt, -, hl, rfl⟩ | ⟨lines, -, -, rfl⟩ | ⟨lines, s, -, -, hs, rfl⟩ | ⟨-, -, rfl⟩⟩ :=
    hostMove_cases hz
  · exact h.load hi h.labels
  · exact h.load h.program hl
  · rcases hs : loadImage c (translationImage (translate lines)) y.core with _ | s
    · exact h
    · exact h.loadImage hs
  · exact h.loadImage hs
  · exact h.startRun

/-- Settles O46: each of a step's four ways keeps the invariant. -/
theorem stepKeepsTheInvariant : Obligations.StepKeepsTheInvariant :=
  fun _ _ _ h ht => step_keeps_inv h ht

/-- Settles O47. -/
theorem resetMeetsTheInvariant : Obligations.ResetMeetsTheInvariant :=
  reset_inv

/-- Settles O48, by induction on how the state is reached. -/
theorem everyReachableStateMeetsTheInvariant : Obligations.EveryReachableStateMeetsTheInvariant := by
  intro c y hy
  induction hy with
  | reset => exact reset_inv c
  | step _ ht ih => exact step_keeps_inv ih ht
  | host _ _ hz ih => exact hostMove_keeps_inv ih hz

/-- Settles O50: IDLE and RUNNING states meet the run invariant, which speaks of ended runs. -/
theorem startsMeetTheRunInvariant : Obligations.StartsMeetTheRunInvariant :=
  ⟨⟨nofun, nofun⟩, fun _ => ⟨nofun, nofun⟩, fun _ _ _ _ h hz => hostMove_keeps_inv h hz⟩

end Sys2Proof.Machine

/-! PROOFS. What an instruction leaves unchanged and what it reads (spec/10_state.md R21 to R24). -/

namespace Sys2Proof.Machine

theorem readReg_commit_same (next : NextPc) (r : Reg) (v : Word) (emit : Option Word) (s : State) :
    readReg (commit next (some (r, v)) emit s) r = v :=
  (readReg_of_regs (commit_regs_some ..) r).trans (readReg_writeReg_same s r v)

theorem Completes.readReg_commit_of_ne {i : Instr} {s : State} {next : NextPc} {wb : Option (Reg × Word)}
    {emit : Option Word} (hc : Completes i s next wb emit) {r : Reg} (hr : writesReg i ≠ some r) :
    readReg (commit next wb emit s) r = readReg s r := by
  rcases wb with _ | ⟨j, v⟩
  · exact readReg_of_regs (commit_regs_none ..) r
  · have hj : r ≠ j := fun h => hr (hc.writes.symm.trans (by simp [h]))
    rw [readReg_of_regs (commit_regs_some ..) r, readReg_writeReg_of_ne s v hj]

/-- The registers that an instruction reads, with the label table, give its result. -/
theorem resultOf_congr {i : Instr} {s1 s2 : State} (hlt : s1.lt = s2.lt)
    (hr : ∀ r ∈ readsRegs i, readReg s1 r = readReg s2 r) : resultOf i s1 = resultOf i s2 := by
  cases i with
  | add ra rb | sub ra rb | mul ra rb | div ra rb =>
    have ha : readReg s1 ra = readReg s2 ra := hr ra (by simp [readsRegs])
    have hb : readReg s1 rb = readReg s2 rb := hr rb (by simp [readsRegs])
    simp only [resultOf, checkedResult, divResult, ha, hb]
  | mov ra lit => rfl
  | out ra => simp only [resultOf, hr ra (by simp [readsRegs])]
  | jnz ra lid => simp only [resultOf, jnzResult, labelLookup, hlt, hr ra (by simp [readsRegs])]

/-- The bank before an instruction with a given result reaches nothing but the bank. -/
theorem finish_with_regs (w : InstrWord) (r : Result) (s : State) (bank : Vector Word 8) :
    finish w r { s with regs := bank } = { finish w r s with regs := (finish w r { s with regs := bank }).regs } := by
  rcases r with ⟨next, _ | ⟨j, v⟩, _ | x⟩ | e <;> rfl

/-- An instruction that raises an exception reads the register it would have written. -/
theorem mem_readsRegs_of_raises {i : Instr} {s : State} {e : Exc} (h : Raises s i e) {r : Reg}
    (hw : writesReg i = some r) : r ∈ readsRegs i := by
  cases h with
  | unbound => cases hw
  | _ =>
    cases hw
    exact List.mem_cons_self

/-- Settles O25: a commit touches the written register, the `pc` and the stream; trap entry touches `FR` and `STATUS`. -/
theorem instructionFrame : Obligations.InstructionFrame := by
  intro i s t h
  obtain ⟨next, wb, emit, hc, rfl⟩ | ⟨e, -, rfl⟩ := exec_next_cases h
  · refine ⟨fun r hr => hc.readReg_commit_of_ne hr, fun a => ?_, ?_, fun id => ?_, ?_, fun hne => ?_, .inl ⟨?_, ?_⟩⟩
    · simp [imemRead]
    · simp [programLength]
    · simp [labelLookup]
    · simp [labelCount]
    · obtain rfl | ⟨ra, hi, -⟩ := hc.emits
      · simp
      · exact absurd hi (hne ra)
    · exact commit_fr ..
    · exact commit_status ..
  · exact ⟨fun _ _ => rfl, fun _ => rfl, rfl, fun _ => rfl, rfl, fun _ => rfl, .inr ⟨rfl, rfl, rfl, rfl⟩⟩

/-- Settles O26: both states give the instruction one result. Where it completes, the written value is the result's; where
it raises, the register keeps a value that was read. -/
theorem instructionReadsOnlyItsOperands : Obligations.InstructionReadsOnlyItsOperands := by
  intro i s1 s2 t1 t2 hs hr h1 h2
  have hres : resultOf i s1 = resultOf i s2 := resultOf_congr (by rw [hs]) hr
  rw [exec_eq] at h1 h2
  cases h1
  cases h2
  rw [hres]
  refine ⟨by rw [hs]; exact finish_with_regs .., fun r hw => ?_⟩
  have hm := resultOf_meets i s2
  rcases he : resultOf i s2 with ⟨next, wb, emit⟩ | e <;> rw [he] at hm
  · obtain ⟨⟨j, v⟩, rfl, rfl⟩ := Option.map_eq_some_iff.1 (hm.writes.trans hw)
    exact (readReg_commit_same ..).trans (readReg_commit_same ..).symm
  · exact hr r (mem_readsRegs_of_raises hm hw)

theorem regs_ext {s t : State} (h : ∀ i, readReg s i = readReg t i) : s.regs = t.regs := by
  refine Vector.ext fun k hk => ?_
  have hi : (BitVec.ofNat 3 k).toNat = k := by simpa using hk
  simpa [readReg, hi] using h (BitVec.ofNat 3 k)

/-- Settles O28. -/
theorem registersAreSeparate : Obligations.RegistersAreSeparate := by
  refine ⟨fun s i j v => ?_, fun _ _ _ => rfl, readReg_clearRegs, fun _ _ h => regs_ext h⟩
  split
  · subst j
    exact readReg_writeReg_same s i v
  · exact readReg_writeReg_of_ne s v (by assumption)

end Sys2Proof.Machine

/-! PROOFS. The `pc`, `STATUS` and the host between runs (spec/10_state.md R26, R28, R34, R35). -/

namespace Sys2Proof.Machine

/-- Settles O35: `pc` + 1 ≤ N holds where a word was fetched, and a bound target is an address by the invariant. -/
theorem programCounterNeverWraps : Obligations.ProgramCounterNeverWraps := by
  intro c s t hinv hs hstep
  refine ⟨(step_keeps_inv hinv hstep).pcFits, ?_⟩
  cases transition_of_step hstep with
  | noRun h => exact absurd hs h
  | halt => exact .inl ⟨rfl, nofun⟩
  | trap => exact .inl ⟨rfl, nofun⟩
  | instr _ hw hc =>
    obtain rfl | ⟨ra, lid, a, rfl, hne, hl, rfl⟩ := hc.jumps
    · exact .inr (.inl ⟨rfl, imemRead_lt hw⟩)
    · exact .inr (.inr ⟨ra, lid, a, hw, hne, hl, rfl⟩)

theorem loadImage_status {c : Config} {p : Program} {s t : State} (h : loadImage c p s = some t) :
    t.status = s.status := by
  obtain ⟨-, rfl⟩ := loadImage_eq_some.1 h
  rfl

/-- R28: the start is the host's only move that changes `STATUS`. -/
theorem hostMove_status {c : Config} {m : HostMove} {y z : System} (h : hostMove c m y = some z) :
    (m = .start ∧ startCommand y.core = some z.core) ∨ (m ≠ .start ∧ z.core.status = y.core.status) := by
  obtain ⟨hr, ⟨imem, rfl, -, rfl⟩ | ⟨lt, rfl, -, rfl⟩ | ⟨lines, rfl, -, rfl⟩ | ⟨lines, s, rfl, -, hs, rfl⟩ |
    ⟨rfl, -, rfl⟩⟩ := hostMove_cases h
  · exact .inr ⟨nofun, rfl⟩
  · exact .inr ⟨nofun, rfl⟩
  · refine .inr ⟨nofun, ?_⟩
    rcases hs : loadImage c (translationImage (translate lines)) y.core with _ | s
    · rfl
    · exact loadImage_status hs
  · exact .inr ⟨nofun, loadImage_status hs⟩
  · exact .inl ⟨rfl, startCommand_eq_some.2 ⟨hr, rfl⟩⟩

/-- Settles O44: of a step's four ways the end check and trap entry alone change `STATUS`. -/
theorem statusTransitions : Obligations.StatusTransitions := by
  refine ⟨rfl, rfl, rfl, rfl, rfl, fun s hs => ?_, fun s t hstep hne => ?_, fun c m y z h => ?_⟩
  · have hr : s.status ≠ .running := by rcases hs with h | h | h <;> simp [h]
    exact ⟨startRun s, startCommand_eq_some.2 ⟨hr, rfl⟩, rfl⟩
  · cases transition_of_step hstep with
    | noRun => exact absurd rfl hne
    | halt hs hpc => exact ⟨hs, .inl ⟨rfl, hpc⟩⟩
    | trap hs hw he => exact ⟨hs, .inr ⟨rfl, _, _, hw, he⟩⟩
    | instr => exact absurd (commit_status ..) hne
  · exact ⟨(hostMove_cases h).1, hostMove_status h⟩

/-- Settles O37. -/
theorem powerOnValues : Obligations.PowerOnValues :=
  ⟨fun i => by simp [readReg, State.reset], rfl, rfl, rfl, rfl, fun _ => rfl⟩

theorem hostMove_loadSource_of_failed (c : Config) {lines : List (List Char)} {y : System}
    (hr : y.core.status ≠ .running) (hf : (translate lines).failure ≠ none) :
    hostMove c (.loadSource lines) y =
      some { core := (loadImage c (translationImage (translate lines)) y.core).getD y.core,
             translationFailed := true } := by
  obtain ⟨f, hf⟩ := Option.ne_none_iff_exists'.1 hf
  simp [hostMove, hr, loadTranslation, hf]

/-- Settles O39. -/
theorem hostActsBetweenRunsOnly : Obligations.HostActsBetweenRunsOnly := by
  refine ⟨fun c m y hr => ?_, fun s hr => if_neg hr, fun c lines y hr hf => ?_⟩
  · exact ⟨if_pos hr, if_pos hr, if_pos hr⟩
  · exact ⟨_, hostMove_loadSource_of_failed c hr hf, hostMove_start_of_failed c rfl⟩

end Sys2Proof.Machine

/-! PROOFS. The datapath: each functional unit behind the mux ends as its instruction's meaning does, and the one-hot `op`
selects the unit of the fetched word's instruction (spec/43_dispatch_step.md R184, R185). -/

namespace Sys2Proof.Machine

/-- The last stage of `datapathStep`: trap entry, or the commit of the mux's outputs. -/
def MuxPorts.finish (m : MuxPorts) (w : InstrWord) (s : State) : State :=
  match m.raised with
  | some e => raiseException w e s
  | none =>
    let s1 := if m.we then writeReg s m.wa m.wdata else s
    let s2 := match m.emit with
      | some v => outEmit s1 v
      | none => s1
    { s2 with pc := if m.selTarget then m.target else s.pc + 1 }

theorem datapathStep_of_fetch (fl : Floating) {s : State} {w : InstrWord} (hw : imemRead s s.pc = some w) :
    datapathStep fl s = (dispatchMux fl s (decoderPorts w)).finish w s := by
  have hpc : ¬ programLength s ≤ s.pc := Nat.not_le.2 (imemRead_lt hw)
  simp only [datapathStep, if_neg hpc, hw, Option.getD_some]
  rfl

/-- The branch unit behind the mux (spec/42_control.md R166). -/
def branchMux (fl : Floating) (ra : Reg) (lid : LabelId) (s : State) : MuxPorts :=
  let lp := labelPort fl s lid
  let br := branchUnit true (readReg s ra) lp.1 lp.2
  { muxIdle fl with
    selTarget := br.selTarget
    target := br.target
    raised := if br.unknownLabel then some (.unknownLabel lid) else none }

/-- The functional unit behind the mux that is an instruction's. -/
def unitOf (fl : Floating) (s : State) : Instr → MuxPorts
  | .add ra rb => checkerUnit fl .add ra rb (readReg s ra) (readReg s rb)
  | .sub ra rb => checkerUnit fl .sub ra rb (readReg s ra) (readReg s rb)
  | .mul ra rb => checkerUnit fl .mul ra rb (readReg s ra) (readReg s rb)
  | .div ra rb => dividerUnit fl ra rb (readReg s ra) (readReg s rb)
  | .mov ra lit => { muxIdle fl with we := true, wa := ra, wdata := lit }
  | .out ra => { muxIdle fl with emit := some (readReg s ra) }
  | .jnz ra lid => branchMux fl ra lid s

section
variable (fl : Floating) (ra rb : Reg) (w : InstrWord) (s : State)

theorem checkerUnit_finish (op : CheckOp) :
    (checkerUnit fl op ra rb (readReg s ra) (readReg s rb)).finish w s = finish w (checkedResult op ra rb s) s := by
  obtain ⟨hd, hr⟩ | ⟨d, hd, hr⟩ := checkedResult_cases op ra rb s <;> rw [hr]
  · simp only [checkerUnit, hd]
    rfl
  · simp only [checkerUnit, hd]
    rfl

/-- The divider tests patterns where R109 tests integers. -/
theorem dividerUnit_finish :
    (dividerUnit fl ra rb (readReg s ra) (readReg s rb)).finish w s = finish w (divResult ra rb s) s := by
  unfold dividerUnit
  simp only [← s32_eq_zero_iff, ← s32_eq_intMin_iff, ← s32_eq_neg_one_iff, ← u32_tdiv]
  obtain ⟨h0, hr⟩ | ⟨ha, hb, hr⟩ | ⟨h0, h1, hr⟩ := divResult_cases ra rb s <;> rw [hr]
  · rw [if_pos h0]
    rfl
  · rw [if_neg (by rw [hb]; decide), if_pos ⟨ha, hb⟩]
    rfl
  · rw [if_neg h0, if_neg h1]
    rfl

theorem branchMux_finish (lid : LabelId) :
    (branchMux fl ra lid s).finish w s = finish w (jnzResult ra lid s) s := by
  unfold branchMux
  obtain ⟨h0, hr⟩ | ⟨h0, a, hl, hr⟩ | ⟨h0, hl, hr⟩ := jnzResult_cases ra lid s <;>
    simp only [ne_eq, s32_eq_zero_iff, BitVec.ofNat_eq_ofNat] at h0 <;> rw [hr]
  · simp [h0, branchUnit, muxIdle, MuxPorts.finish, commit, nextPc]
  · simp [h0, hl, branchUnit, labelPort, muxIdle, MuxPorts.finish, commit, nextPc]
  · simp [h0, hl, branchUnit, labelPort, MuxPorts.finish]

theorem unitOf_finish (i : Instr) : (unitOf fl s i).finish w s = finish w (resultOf i s) s := by
  cases i with
  | add ra rb => exact checkerUnit_finish ..
  | sub ra rb => exact checkerUnit_finish ..
  | mul ra rb => exact checkerUnit_finish ..
  | div ra rb => exact dividerUnit_finish ..
  | mov ra lit => rfl
  | out ra => rfl
  | jnz ra lid => exact branchMux_finish ..

end

theorem decoderPorts_of_fields {opc : BitVec 3} {ra rb : Reg} {imm : BitVec 32}
    (h : illegalWire (encodeFields opc ra rb imm) = false) :
    decoderPorts (encodeFields opc ra rb imm) =
      { illegal := false, op := 1#7 <<< opc.toNat, ra := ra, rb := rb, imm := imm } := by
  simp [decoderPorts, h]

theorem dispatchMux_encode (fl : Floating) (i : Instr) (s : State) :
    dispatchMux fl s (decoderPorts (encode i)) = unitOf fl s i := by
  have h := legal_encode i
  cases i <;> rw [encode] at h ⊢ <;> rw [decoderPorts_of_fields h] <;> simp [dispatchMux, unitOf, branchMux]

theorem dispatchMux_of_illegal (fl : Floating) (s : State) {w : InstrWord} (h : illegalWire w = true) :
    (dispatchMux fl s (decoderPorts w)).finish w s = raiseException w .illegalInstruction s := by
  simp [dispatchMux, decoderPorts, h, MuxPorts.finish]

/-- Settles O36: end check, illegal word and instruction end alike in both forms of the step. -/
theorem datapathComputesTheStep : Obligations.DatapathComputesTheStep := by
  intro fl s hs
  obtain ⟨hne, -⟩ | ⟨-, hpc, he⟩ | ⟨-, w, hw, ⟨x, hd, he⟩ | ⟨i, hd, he⟩⟩ := step_cases s
  · exact absurd hs hne
  · rw [he, datapathStep, if_pos hpc]
  · rw [he, datapathStep_of_fetch fl hw, dispatchMux_of_illegal fl s (illegal_of_decode_error hd)]
  · obtain rfl := (encode_of_decode hd).symm
    rw [he, datapathStep_of_fetch fl hw, dispatchMux_encode, unitOf_finish, exec_eq]

end Sys2Proof.Machine

/-! PROOFS. Memory and the sink: where a word and a label exist, that no step writes `IMEM` or `LT`, and that the output
stream only grows (spec/20_memory.md R41, R45, R46, R51, R53). -/

namespace Sys2Proof.Machine

/-- Settles O12. -/
theorem fetchAndLabelLookupCoverTheirRanges : Obligations.FetchAndLabelLookupCoverTheirRanges := by
  refine ⟨imemRead_eq_none_iff, fun _ _ h => List.getElem?_eq_getElem h, labelLookup_of_lt, labelLookup_of_le,
    fun s ra id hid hne => ?_⟩
  have hres : resultOf (.jnz ra id) s = .raised (.unknownLabel id) := by
    simp [resultOf, jnzResult, hne, labelLookup_of_le s id hid]
  rw [exec_eq, hres, finish_raised]

theorem step_keeps_program {s t : State} (h : step s = .next t) : t.imem = s.imem ∧ t.lt = s.lt := by
  cases transition_of_step h with
  | noRun | halt | trap => exact ⟨rfl, rfl⟩
  | instr => exact ⟨commit_imem .., commit_lt ..⟩

/-- Settles O42: what a step keeps, a run keeps. -/
theorem programIsImmutableDuringARun : Obligations.ProgramIsImmutableDuringARun := by
  refine ⟨fun k s t h => ?_, fun _ _ _ hr => if_pos hr⟩
  refine run_keeps (P := fun u => u.imem = s.imem ∧ u.lt = s.lt) (fun u v hu huv => ?_) h ⟨rfl, rfl⟩
  obtain ⟨himem, hlt⟩ := step_keeps_program huv
  exact ⟨himem.trans hu.1, hlt.trans hu.2⟩

theorem decode_encode (i : Instr) : decode (encode i) = .ok i := by
  rw [decode_of_legal (legal_encode i)]
  cases i <;> simp [encode, instrOfFields]

theorem step_of_fetch {i : Instr} {s : State} (hs : s.status = .running)
    (hw : imemRead s s.pc = some (encode i)) : step s = exec i s := by
  have hpc : ¬ programLength s ≤ s.pc := Nat.not_le.2 (imemRead_lt hw)
  simp [step, hs, hpc, hw, decode_encode]

/-- Of a step's four ways only an instruction's commit emits, and of the instructions only `out`. -/
theorem step_out_cases {s t : State} (h : step s = .next t) :
    t.out = s.out ∨
      ∃ ra, s.status = .running ∧ imemRead s s.pc = some (encode (.out ra)) ∧ t.out = s.out ++ [readReg s ra] := by
  cases transition_of_step h with
  | noRun | halt | trap => exact .inl rfl
  | instr hs hw hc =>
    obtain rfl | ⟨ra, rfl, rfl⟩ := hc.emits
    · exact .inl (by simp)
    · exact .inr ⟨ra, hs, hw, commit_out ..⟩

theorem out_prefix_of_step {s t : State} (h : step s = .next t) : s.out <+: t.out := by
  obtain ho | ⟨ra, -, -, ho⟩ := step_out_cases h <;> rw [ho]
  exact List.prefix_append ..

/-- Settles O43: the stream after a step begins with the stream before it, and so for a run. -/
theorem outputOnlyGrowsByOut : Obligations.OutputOnlyGrowsByOut := by
  refine ⟨fun _ _ => step_out_cases, fun s ra hs hw => ?_, fun k s t h => ?_⟩
  · exact ⟨_, (step_of_fetch hs hw).trans (exec_eq ..), commit_out ..⟩
  · obtain ⟨emitted, he⟩ : s.out <+: t.out :=
      run_keeps (P := fun u => s.out <+: u.out) (fun _ _ hu huv => hu.trans (out_prefix_of_step huv)) h
        (List.prefix_refl _)
    exact ⟨emitted, he.symm⟩

end Sys2Proof.Machine

/-! PROOFS. The translator keeps a bound label's ID and address: interning only appends, and a name is bound only while
it is unbound (spec/20_memory.md R46, spec/30_encoding.md R78). -/

namespace Sys2Proof.Machine

theorem getElem?_of_prefix {α : Type} {l m : List α} {k : Nat} {x : α} (hp : l <+: m) (h : l[k]? = some x) :
    m[k]? = some x := by
  obtain ⟨hk, rfl⟩ := List.getElem?_eq_some_iff.1 h
  exact List.prefix_iff_getElem?.1 hp k hk

theorem prefix_internName (names : List (Token × LabelEntry)) (name : Token) : names <+: internName names name := by
  unfold internName
  split
  · exact List.prefix_refl _
  · exact List.prefix_append ..

theorem prefix_mentionLabel (label : Option Token) (t : Translation) : t.names <+: (mentionLabel label t).names := by
  rcases label with _ | name
  · exact List.prefix_refl _
  · exact prefix_internName ..

theorem prefix_appendInstr (a : AsmInstr) (t : Translation) : t.names <+: (appendInstr a t).names := by
  cases a with
  | plain i => exact List.prefix_refl _
  | jnz ra name => exact prefix_internName ..

theorem isBound_of_mem {names : List (Token × LabelEntry)} {name : Token} {a : Nat}
    (h : (name, .bound a) ∈ names) : isBound names name = true :=
  List.any_eq_true.2 ⟨_, h, by simp⟩

section
variable {k : Nat} {name : Token} {a : Nat} {t : Translation}

/-- Registering binds a name only while it is unbound, so an entry bound before is another name's. -/
theorem registerLabel_keeps_bound (n : Nat) (label : Option Token) (h : t.names[k]? = some (name, .bound a)) :
    (registerLabel n label t).names[k]? = some (name, .bound a) := by
  rcases label with _ | other
  · exact h
  rcases hb : isBound t.names other with _ | _
  · have hne : name ≠ other := by
      rintro rfl
      simp [isBound_of_mem (List.mem_of_getElem? h)] at hb
    simp [registerLabel_names_of_unbound n hb, bindName, h, hne]
  · rwa [registerLabel_names_of_bound n hb]

theorem translateFrom_keeps_bound (lines : List (List Char)) (n : Nat) (h : t.names[k]? = some (name, .bound a)) :
    (translateFrom n t lines).names[k]? = some (name, .bound a) := by
  induction lines generalizing n t with
  | nil => exact h
  | cons line rest ih =>
    have hseen := getElem?_of_prefix (prefix_mentionLabel (parseLine line).1 t) h
    simp only [translateFrom]
    split
    · exact hseen
    · exact ih _ hseen
    · exact ih _ (getElem?_of_prefix (prefix_appendInstr ..) (registerLabel_keeps_bound n _ hseen))

end

/-- Settles O54, by induction on the further lines. -/
theorem firstLabelBindingIsKept : Obligations.FirstLabelBindingIsKept :=
  fun lines n _ _ _ _ h => translateFrom_keeps_bound lines n h

end Sys2Proof.Machine

/-! PROOFS. Encoding: the round trip of words and instructions, and the opcode table against the decoder
(spec/30_encoding.md R61 to R68, R81). -/

namespace Sys2Proof.Machine

/-- Settles O1: the word is the sum of its fields, and a legal word and its instruction determine each other. -/
theorem encodingRoundTripsBothWays : Obligations.EncodingRoundTripsBothWays := by
  refine ⟨fun ra rb => ?_, fun ra rb => ?_, fun ra rb => ?_, fun ra rb => ?_, fun ra lit => ?_, fun ra => ?_,
    fun ra lid => ?_, decode_encode, fun _ _ => encode_of_decode, by decide, by decide, by decide⟩ <;>
    simp [encode, encodeFields_toNat]

/-- Settles O5. -/
theorem decoderReadsTheSpecsWords : Obligations.DecoderReadsTheSpecsWords := by
  unfold Obligations.DecoderReadsTheSpecsWords
  decide

theorem opcField_encode (i : Instr) : opcField (encode i) = i.opcode := by
  cases i <;> simp [encode, Instr.opcode]

theorem opcField_of_decode {w : InstrWord} {i : Instr} (h : decode w = .ok i) : opcField w = i.opcode := by
  rw [← encode_of_decode h, opcField_encode]

theorem illegalWire_iff_decode_error (w : InstrWord) : illegalWire w = true ↔ ∃ x, decode w = .error x := by
  obtain ⟨hw, hx⟩ | ⟨hw, i, hi, -⟩ := decode_cases w <;> simp [*]

theorem legal_iff_decode_ok (w : InstrWord) : illegalWire w = false ↔ ∃ i, decode w = .ok i := by
  obtain ⟨hw, x, hx⟩ | ⟨hw, i, hi, -⟩ := decode_cases w <;> simp [*]

/-- Two words are equal when each field of R61 is. -/
theorem eq_iff_fields (w v : InstrWord) :
    w = v ↔ opcField w = opcField v ∧ raField w = raField v ∧ rbField w = rbField v ∧ rsvField w = rsvField v ∧
      immField w = immField v := by
  refine ⟨fun h => by simp [h], fun ⟨hopc, hra, hrb, hrsv, himm⟩ => ?_⟩
  simp only [opcField, raField, rbField, rsvField, immField, ← BitVec.toNat_inj, BitVec.extractLsb'_toNat,
    Nat.shiftRight_eq_div_pow] at *
  omega

/-- A mask selects field by field. -/
theorem covers_iff_fields (row : OpcodeRow) (w : InstrWord) :
    row.covers w = true ↔
      opcField w &&& opcField row.mask = opcField row.pattern ∧ raField w &&& raField row.mask = raField row.pattern ∧
      rbField w &&& rbField row.mask = rbField row.pattern ∧ rsvField w &&& rsvField row.mask = rsvField row.pattern ∧
      immField w &&& immField row.mask = immField row.pattern := by
  rw [OpcodeRow.covers, beq_iff_eq, eq_iff_fields]
  simp only [opcField, raField, rbField, rsvField, immField, BitVec.extractLsb'_and]

/-- The table in the terms of R61: a row fixes `OPC` and asks for zero in `RSV` and the fields its shape leaves out. -/
theorem opcodeTable_fields : ∀ row ∈ opcodeTable,
    row.pattern = encodeFields (opcField row.pattern) 0 0 0 ∧ opcField row.pattern ≠ 7 ∧
    opcField row.mask = BitVec.allOnes 3 ∧ raField row.mask = 0 ∧ rsvField row.mask = BitVec.allOnes 23 ∧
    rbField row.mask = (if 4 ≤ (opcField row.pattern).toNat then BitVec.allOnes 3 else 0) ∧
    immField row.mask =
      (if (opcField row.pattern).toNat ≤ 3 ∨ opcField row.pattern = 5 then BitVec.allOnes 32 else 0) := by
  decide

theorem and_ite_allOnes_eq_zero_iff {n : Nat} (x : BitVec n) (p : Prop) [Decidable p] :
    x &&& (if p then BitVec.allOnes n else 0) = 0 ↔ (p → x = 0) := by
  split <;> simp [*]

/-- A row covers the legal words of its opcode. -/
theorem covers_iff_legal {row : OpcodeRow} (hrow : row ∈ opcodeTable) (w : InstrWord) :
    row.covers w = true ↔ opcField w = opcField row.pattern ∧ illegalWire w = false := by
  obtain ⟨hpattern, h7, hopc, hra, hrsv, hrb, himm⟩ := opcodeTable_fields row hrow
  rw [covers_iff_fields, illegalWire_eq_false_iff, hopc, hra, hrsv, hrb, himm, BitVec.and_allOnes, BitVec.and_allOnes]
  generalize opcField row.pattern = opc at *
  rw [hpattern]
  simp only [raField_encodeFields, rbField_encodeFields, rsvField_encodeFields, immField_encodeFields,
    and_ite_allOnes_eq_zero_iff]
  refine and_congr_right ?_
  rintro rfl
  simp only [BitVec.ofNat_eq_ofNat, BitVec.and_zero]
  tauto

/-! Each opcode below 7 has one row of the table, with the mnemonic of its instructions. -/

theorem opcodeTable_eq_of_opcode :
    ∀ r1 ∈ opcodeTable, ∀ r2 ∈ opcodeTable, opcField r1.pattern = opcField r2.pattern → r1 = r2 := by
  decide

theorem exists_row_of_instr (i : Instr) :
    ∃ row ∈ opcodeTable, opcField row.pattern = i.opcode ∧ row.mnemonic = i.mnemonic := by
  cases i <;> simp only [Instr.opcode, Instr.mnemonic] <;> decide

/-- Settles O2: a row covers the legal words of its opcode, and the rows' opcodes are those of the instructions. -/
theorem decoderAcceptsExactlyTheOpcodeTable : Obligations.DecoderAcceptsExactlyTheOpcodeTable := by
  refine ⟨fun w => ?_, fun w i hi row hrow hw => ?_, fun w r1 h1 r2 h2 hw1 hw2 => ?_⟩
  · rw [wordLegal, List.any_eq_true, ← legal_iff_decode_ok]
    constructor
    · rintro ⟨row, hrow, hw⟩
      exact ((covers_iff_legal hrow w).1 hw).2
    · intro hlegal
      obtain ⟨i, hi⟩ := (legal_iff_decode_ok w).1 hlegal
      obtain ⟨row, hrow, hopc, -⟩ := exists_row_of_instr i
      exact ⟨row, hrow, (covers_iff_legal hrow w).2 ⟨(opcField_of_decode hi).trans hopc.symm, hlegal⟩⟩
  · obtain ⟨hopc, -⟩ := (covers_iff_legal hrow w).1 hw
    obtain ⟨own, hown, hopc', hm⟩ := exists_row_of_instr i
    have hsame : opcField row.pattern = opcField own.pattern := by rw [← hopc, hopc', opcField_of_decode hi]
    rw [opcodeTable_eq_of_opcode row hrow own hown hsame, hm]
  · obtain ⟨hopc1, -⟩ := (covers_iff_legal h1 w).1 hw1
    obtain ⟨hopc2, -⟩ := (covers_iff_legal h2 w).1 hw2
    exact opcodeTable_eq_of_opcode r1 h1 r2 h2 (hopc1.symm.trans hopc2)

end Sys2Proof.Machine

/-! PROOFS. Illegal words, the decoder's outputs and the number of legal words (spec/30_encoding.md R68 to R70). -/

namespace Sys2Proof.Machine

/-- R69 at each of the eight opcodes: the wire's tests, said by opcode. -/
theorem illegalWire_iff_fields (w : InstrWord) :
    illegalWire w = true ↔
      opcField w = 7 ∨ rsvField w ≠ 0 ∨
      ((opcField w = 0 ∨ opcField w = 1 ∨ opcField w = 2 ∨ opcField w = 3) ∧ immField w ≠ 0) ∨
      ((opcField w = 4 ∨ opcField w = 5 ∨ opcField w = 6) ∧ rbField w ≠ 0) ∨
      (opcField w = 5 ∧ immField w ≠ 0) := by
  rw [← Bool.not_eq_false, illegalWire_eq_false_iff]
  generalize opcField w = opc
  have hopc : opc = 0 ∨ opc = 1 ∨ opc = 2 ∨ opc = 3 ∨ opc = 4 ∨ opc = 5 ∨ opc = 6 ∨ opc = 7 := by
    revert opc
    decide
  rcases hopc with rfl | rfl | rfl | rfl | rfl | rfl | rfl | rfl <;> simp <;> tauto

theorem step_of_fetch_illegal {s : State} {w : InstrWord} {x : IllegalWord} (hs : s.status = .running)
    (hw : imemRead s s.pc = some w) (hx : decode w = .error x) :
    step s = .next (raiseException w .illegalInstruction s) := by
  have hpc : ¬ programLength s ≤ s.pc := Nat.not_le.2 (imemRead_lt hw)
  simp [step, hs, hpc, hw, hx]

/-- Settles O3. -/
theorem illegalWordsRaiseIllegalInstruction : Obligations.IllegalWordsRaiseIllegalInstruction :=
  ⟨fun w => (illegalWire_iff_decode_error w).symm.trans (illegalWire_iff_fields w),
    fun _ _ _ hs hw hx => step_of_fetch_illegal hs hw hx⟩

theorem opcode_lt_seven (i : Instr) : i.opcode.toNat < 7 := by
  cases i <;> simp [Instr.opcode]

theorem getLsbD_oneHot : ∀ n < 7, ∀ k < 7, ((1#7 <<< n).getLsbD k = true ↔ k = n) := by
  decide

/-- Settles O6: a legal word is its instruction's, so the outputs are the instruction's fields. -/
theorem decoderPortsAreOneHot : Obligations.DecoderPortsAreOneHot := by
  refine fun w => ⟨illegalWire_iff_decode_error w, fun h => if_pos h, fun i hi => ?_⟩
  obtain rfl := encode_of_decode hi
  refine ⟨fun k hk => ?_, ?_⟩
  · simp only [decoderPorts, legal_encode, opcField_encode]
    exact getLsbD_oneHot _ (opcode_lt_seven i) k hk
  · cases i <;> simp [decoderPorts, encode, Instr.opcode]

/-! Counting: `encode` numbers the words of a family of instructions by the family's operands. -/

theorem encode_injective : Function.Injective encode := fun i j h => by
  simpa [decode_encode] using congrArg decode h

theorem card_decode_eq {α : Type} {f : α → Instr} (hf : Function.Injective f) :
    Nat.card { w : InstrWord // ∃ a, decode w = .ok (f a) } = Nat.card α := by
  symm
  refine Nat.card_congr (Equiv.ofBijective (fun a => ⟨encode (f a), a, decode_encode (f a)⟩) ⟨fun a b h => ?_, ?_⟩)
  · exact hf (encode_injective (congrArg Subtype.val h))
  · rintro ⟨w, a, ha⟩
    exact ⟨a, Subtype.ext (encode_of_decode ha)⟩

theorem card_decode_eq_mul {α β : Type} {f : α → β → Instr} (hf : Function.Injective2 f) :
    Nat.card { w : InstrWord // ∃ a b, decode w = .ok (f a b) } = Nat.card α * Nat.card β := by
  rw [← Nat.card_prod, ← card_decode_eq hf.uncurry]
  simp only [Prod.exists, Function.uncurry]

theorem card_bitVec (n : Nat) : Nat.card (BitVec n) = 2 ^ n := by
  rw [Nat.card_congr BitVec.equivFin.toEquiv, Nat.card_fin]

/-- The operands of the seven instructions, in the opcodes' order. -/
abbrev Operands := (Reg × Reg) ⊕ (Reg × Reg) ⊕ (Reg × Reg) ⊕ (Reg × Reg) ⊕ (Reg × Word) ⊕ Reg ⊕ (Reg × LabelId)

def operandsOf : Instr → Operands
  | .add ra rb => .inl (ra, rb)
  | .sub ra rb => .inr (.inl (ra, rb))
  | .mul ra rb => .inr (.inr (.inl (ra, rb)))
  | .div ra rb => .inr (.inr (.inr (.inl (ra, rb))))
  | .mov ra lit => .inr (.inr (.inr (.inr (.inl (ra, lit)))))
  | .out ra => .inr (.inr (.inr (.inr (.inr (.inl ra)))))
  | .jnz ra lid => .inr (.inr (.inr (.inr (.inr (.inr (ra, lid))))))

/-- An instruction is its opcode with its operands. -/
def operandsEquiv : Instr ≃ Operands where
  toFun := operandsOf
  invFun :=
    Sum.elim (Function.uncurry .add) <| Sum.elim (Function.uncurry .sub) <| Sum.elim (Function.uncurry .mul) <|
      Sum.elim (Function.uncurry .div) <| Sum.elim (Function.uncurry .mov) <| Sum.elim .out (Function.uncurry .jnz)
  left_inv i := by cases i <;> rfl
  right_inv p := by rcases p with p | p | p | p | p | r | p <;> rfl

/-- Settles O4: 4 · 64 words of shape R, 2 · 2^35 of the shapes with an immediate, and 8 of `out`. -/
theorem legalWordCounts : Obligations.LegalWordCounts := by
  refine ⟨(card_decode_eq_mul fun _ _ _ _ h => Instr.add.inj h).trans ?_,
    (card_decode_eq_mul fun _ _ _ _ h => Instr.sub.inj h).trans ?_,
    (card_decode_eq_mul fun _ _ _ _ h => Instr.mul.inj h).trans ?_,
    (card_decode_eq_mul fun _ _ _ _ h => Instr.div.inj h).trans ?_,
    (card_decode_eq_mul fun _ _ _ _ h => Instr.mov.inj h).trans ?_,
    (card_decode_eq_mul fun _ _ _ _ h => Instr.jnz.inj h).trans ?_,
    (card_decode_eq fun _ _ h => Instr.out.inj h).trans ?_,
    (card_decode_eq Function.injective_id).trans ((Nat.card_congr operandsEquiv).trans ?_)⟩ <;>
    simp only [Nat.card_sum, Nat.card_prod, card_bitVec, Nat.reducePow, Nat.reduceMul, Nat.reduceAdd]

end Sys2Proof.Machine

/-! PROOFS. Integer tokens: an optional sign before digits, read as the value they spell (spec/30_encoding.md R76). -/

namespace Sys2Proof.Machine

/-- The value that digits spell after a value already read: the fold of R76's statement. -/
def spelled (acc : Int) (digits : List Char) : Int :=
  digits.foldl (fun (acc : Int) ch => acc * 10 + (ch.toNat - 48)) acc

theorem digitValue_eq_some_iff {ch : Char} {d : Nat} :
    digitValue ch = some d ↔ (48 ≤ ch.toNat ∧ ch.toNat ≤ 57) ∧ d = ch.toNat - 48 := by
  unfold digitValue
  split <;> simp [*, eq_comm]

theorem digits_of_digitsFrom {digits : List Char} {acc n : Nat} (h : digitsFrom acc digits = some n) :
    ∀ ch ∈ digits, 48 ≤ ch.toNat ∧ ch.toNat ≤ 57 := by
  induction digits generalizing acc with
  | nil => nofun
  | cons ch rest ih =>
    simp only [digitsFrom] at h
    split at h
    · rename_i d hd
      exact List.forall_mem_cons.2 ⟨(digitValue_eq_some_iff.1 hd).1, ih h⟩
    · cases h

theorem digitsFrom_of_digits {digits : List Char} (h : ∀ ch ∈ digits, 48 ≤ ch.toNat ∧ ch.toNat ≤ 57) (acc : Nat) :
    ∃ n : Nat, digitsFrom acc digits = some n ∧ (n : Int) = spelled acc digits := by
  induction digits generalizing acc with
  | nil => exact ⟨acc, rfl, rfl⟩
  | cons ch rest ih =>
    obtain ⟨hch, hrest⟩ := List.forall_mem_cons.1 h
    obtain ⟨n, hn, hv⟩ := ih hrest (acc * 10 + (ch.toNat - 48))
    refine ⟨n, ?_, ?_⟩
    · simp only [digitsFrom, digitValue_eq_some_iff.2 ⟨hch, rfl⟩, hn]
    · rw [hv, spelled, spelled, List.foldl_cons]
      push_cast [hch.1]
      rfl

theorem parseDigits_eq {digits : List Char} (h : digits ≠ []) : parseDigits digits = digitsFrom 0 digits := by
  cases digits with
  | nil => exact absurd rfl h
  | cons => rfl

theorem parseDigits_eq_some_iff {digits : List Char} {n : Nat} :
    parseDigits digits = some n ↔
      digits ≠ [] ∧ (∀ ch ∈ digits, 48 ≤ ch.toNat ∧ ch.toNat ≤ 57) ∧ (n : Int) = spelled 0 digits := by
  by_cases hne : digits = []
  · subst hne
    simp [parseDigits]
  rw [parseDigits_eq hne]
  constructor
  · intro h
    have hd := digits_of_digitsFrom h
    obtain ⟨k, hk, hv⟩ := digitsFrom_of_digits hd 0
    cases hk.symm.trans h
    exact ⟨hne, hd, hv⟩
  · rintro ⟨-, hd, hv⟩
    obtain ⟨k, hk, hv'⟩ := digitsFrom_of_digits hd 0
    rw [hk, Int.ofNat.inj (hv'.trans hv.symm)]

theorem parseInteger_of_unsigned {digits : List Char} {n : Nat} (h : parseDigits digits = some n) :
    parseInteger digits = some n := by
  obtain ⟨hne, hd, -⟩ := parseDigits_eq_some_iff.1 h
  obtain ⟨ch, rest, rfl⟩ := List.exists_cons_of_ne_nil hne
  have hch := hd ch List.mem_cons_self
  have hplus : ch ≠ '+' := by rintro rfl; revert hch; decide
  have hminus : ch ≠ '-' := by rintro rfl; revert hch; decide
  simp only [parseInteger, if_neg hplus, if_neg hminus, h]
  rfl

theorem parseInteger_eq_some_iff {tok : Token} {v : Int} :
    parseInteger tok = some v ↔ ∃ (digits : List Char) (n : Nat), parseDigits digits = some n ∧
      ((tok = digits ∧ v = n) ∨ (tok = '+' :: digits ∧ v = n) ∨ (tok = '-' :: digits ∧ v = -n)) := by
  constructor
  · intro h
    cases tok with
    | nil => cases h
    | cons ch rest =>
      simp only [parseInteger] at h
      split_ifs at h with hplus hminus <;> obtain ⟨n, hn, rfl⟩ := Option.map_eq_some_iff.1 h
      · exact ⟨rest, n, hn, .inr (.inl ⟨by rw [hplus], rfl⟩)⟩
      · exact ⟨rest, n, hn, .inr (.inr ⟨by rw [hminus], rfl⟩)⟩
      · exact ⟨ch :: rest, n, hn, .inl ⟨rfl, rfl⟩⟩
  · rintro ⟨digits, n, hn, ⟨rfl, rfl⟩ | ⟨rfl, rfl⟩ | ⟨rfl, rfl⟩⟩
    · exact parseInteger_of_unsigned hn
    · simp [parseInteger, hn]
    · simp [parseInteger, hn]

theorem fitsInt32_iff (v : Int) : fitsInt32 v = true ↔ intMin ≤ v ∧ v ≤ intMax := by
  simp [fitsInt32]

theorem parseLiteral_eq_some_iff {tok : Token} {w : Word} :
    parseLiteral tok = some w ↔ ∃ v, parseInteger tok = some v ∧ intMin ≤ v ∧ v ≤ intMax ∧ s32 w = v := by
  unfold parseLiteral
  rcases parseInteger tok with _ | v
  · simp
  · simp only [fitsInt32_iff, Option.ite_none_right_eq_some, Option.some.injEq, exists_eq_left', and_assoc]
    refine and_congr_right fun hlo => and_congr_right fun hhi => ⟨?_, ?_⟩
    · rintro rfl
      exact s32_u32_of_fits ⟨hlo, hhi⟩
    · rintro rfl
      exact u32_s32 w

theorem literalOperand_eq_ok_iff {tok : Token} {w : Word} :
    literalOperand tok = .ok w ↔ parseLiteral tok = some w := by
  unfold literalOperand
  split <;> simp [*]

/-- Settles O52. -/
theorem literalTokensAreInt32 : Obligations.LiteralTokensAreInt32 := by
  refine ⟨fun tok v => ?_, fun tok w => literalOperand_eq_ok_iff.trans parseLiteral_eq_some_iff, fun tok h => ?_⟩
  · rw [parseInteger_eq_some_iff]
    constructor
    · rintro ⟨digits, n, hn, htok⟩
      obtain ⟨hne, hd, hv⟩ := parseDigits_eq_some_iff.1 hn
      rw [hv] at htok
      exact ⟨digits, hne, hd, htok⟩
    · rintro ⟨digits, hne, hd, htok⟩
      obtain ⟨n, hn, hv⟩ := digitsFrom_of_digits hd 0
      refine ⟨digits, n, (parseDigits_eq hne).trans hn, ?_⟩
      rw [hv]
      exact htok
  · have hnone : parseLiteral tok = none :=
      Option.eq_none_iff_forall_ne_some.2 fun w hw => h w (literalOperand_eq_ok_iff.2 hw)
    simp only [literalOperand, hnone]

end Sys2Proof.Machine

/-! PROOFS. Canonical text: the decimal digits of a number read back, a text of words splits into them again, and so a
canonical line parses to its instruction (spec/30_encoding.md R72, R74, R80). -/

namespace Sys2Proof.Machine

theorem digitsFrom_append (acc : Nat) (xs ys : List Char) :
    digitsFrom acc (xs ++ ys) = (digitsFrom acc xs).bind fun a => digitsFrom a ys := by
  induction xs generalizing acc with
  | nil => rfl
  | cons ch xs ih =>
    simp only [List.cons_append, digitsFrom]
    split
    · exact ih _
    · rfl

theorem digitsFrom_decimalDigits {fuel n : Nat} (h : n < 10 ^ fuel) : digitsFrom 0 (decimalDigits fuel n) = some n := by
  induction fuel generalizing n with
  | zero =>
    obtain rfl : n = 0 := by simpa using h
    rfl
  | succ fuel ih =>
    simp only [decimalDigits]
    split
    · simp [digitsFrom, digitValue_digitChar, *]
    · rw [digitsFrom_append, ih (by omega)]
      simp [digitsFrom, digitValue_digitChar (Nat.mod_lt n (by decide))]
      omega

theorem decimalDigits_ne_nil (fuel n : Nat) : decimalDigits (fuel + 1) n ≠ [] := by
  simp only [decimalDigits]
  split <;> simp

theorem parseDigits_decimalDigits {n : Nat} (h : n < 10 ^ 10) : parseDigits (decimalDigits 10 n) = some n :=
  (parseDigits_eq (decimalDigits_ne_nil 9 n)).trans (digitsFrom_decimalDigits h)

theorem natAbs_s32_lt (v : Word) : (s32 v).natAbs < 10 ^ 10 := by
  have := s32_range v
  omega

theorem parseInteger_decimalText (w : Word) : parseInteger (decimalText (s32 w)) = some (s32 w) := by
  have hn := parseDigits_decimalDigits (natAbs_s32_lt w)
  refine parseInteger_eq_some_iff.2 ⟨_, _, hn, ?_⟩
  unfold decimalText
  split
  · exact .inr (.inr ⟨rfl, by omega⟩)
  · exact .inl ⟨rfl, by omega⟩

theorem literalOperand_decimalText (w : Word) : literalOperand (decimalText (s32 w)) = .ok w :=
  literalOperand_eq_ok_iff.2 <| parseLiteral_eq_some_iff.2
    ⟨_, parseInteger_decimalText w, (s32_range w).1, (s32_range w).2, rfl⟩

/-- A token of a line: characters, none of them white space (spec/30_encoding.md R72). -/
def IsWord (t : Token) : Prop := t ≠ [] ∧ ∀ ch ∈ t, isBlank ch = false

theorem tokens_of_word {t : Token} (h : IsWord t) : tokens t = [t] := by
  have := tokensFrom_word [] t [] h.2
  simpa [tokens, tokensFrom, h.1] using this

theorem tokens_word_space {t : Token} (h : IsWord t) (rest : List Char) :
    tokens (t ++ ' ' :: rest) = t :: tokens rest := by
  have := tokensFrom_word [] t (' ' :: rest) h.2
  simpa [tokens, tokensFrom, h.1, isBlank] using this

theorem tokens_intercalate {ts : List Token} (h : ∀ t ∈ ts, IsWord t) : tokens (List.intercalate [' '] ts) = ts := by
  induction ts with
  | nil => rfl
  | cons t rest ih =>
    obtain ⟨ht, hrest⟩ := List.forall_mem_cons.1 h
    cases rest with
    | nil => simpa using tokens_of_word ht
    | cons u us =>
      rw [List.intercalate_cons_cons, List.append_assoc, List.singleton_append, tokens_word_space ht, ih hrest]

theorem isBlank_of_digit {ch : Char} (h : 48 ≤ ch.toNat ∧ ch.toNat ≤ 57) : isBlank ch = false := by
  have hspace : ch ≠ ' ' := by rintro rfl; revert h; decide
  have h13 : ¬ ch.toNat ≤ 13 := by omega
  simp [isBlank, hspace, h13]

theorem decimalDigits_isWord {n : Nat} (h : n < 10 ^ 10) : IsWord (decimalDigits 10 n) :=
  ⟨decimalDigits_ne_nil 9 n, fun ch hch => isBlank_of_digit (digits_of_digitsFrom (digitsFrom_decimalDigits h) ch hch)⟩

theorem decimalText_isWord (w : Word) : IsWord (decimalText (s32 w)) := by
  obtain ⟨hne, hblank⟩ := decimalDigits_isWord (natAbs_s32_lt w)
  unfold decimalText
  split
  · exact ⟨List.cons_ne_nil _ _, List.forall_mem_cons.2 ⟨rfl, hblank⟩⟩
  · exact ⟨hne, hblank⟩

theorem registerName_isWord (r : Reg) : IsWord (registerName r) := by
  obtain ⟨hblank, hne, -⟩ := registerName_spec r
  exact ⟨hne, by simpa using hblank⟩

theorem mnemonicToken_isWord (m : Mnemonic) : IsWord (mnemonicToken m) := by
  obtain ⟨hblank, hne, -⟩ := mnemonicToken_spec m
  exact ⟨hne, by simpa using hblank⟩

theorem registerOperand_registerName (r : Reg) : registerOperand (registerName r) = .ok r := by
  obtain ⟨-, -, hparse⟩ := registerName_spec r
  simp [registerOperand, hparse]

theorem parseMnemonic_mnemonicToken (m : Mnemonic) : parseMnemonic (mnemonicToken m) = some m := by
  obtain ⟨-, -, -, hparse⟩ := mnemonicToken_spec m
  exact hparse

theorem labelName_mnemonicToken (m : Mnemonic) : labelName (mnemonicToken m) = none := by
  obtain ⟨-, -, hlabel, -⟩ := mnemonicToken_spec m
  exact hlabel

section
variable {a : AsmInstr}

theorem asmTokens_isWord (hname : ∀ ra name, a = .jnz ra name → IsWord name) : ∀ t ∈ asmTokens a, IsWord t := by
  rcases a with i | ⟨ra, name⟩
  · cases i with
    | jnz ra lid =>
      have hid : IsWord (decimalDigits 10 lid.toNat) := decimalDigits_isWord (by omega)
      simp [asmTokens, mnemonicToken_isWord, registerName_isWord, hid]
    | _ => simp [asmTokens, mnemonicToken_isWord, registerName_isWord, decimalText_isWord]
  · simp [asmTokens, mnemonicToken_isWord, registerName_isWord, hname ra name rfl]

theorem parseBody_asmTokens (hid : ∀ ra lid, a ≠ .plain (.jnz ra lid)) : parseBody (asmTokens a) = .ok (some a) := by
  rcases a with i | ⟨ra, name⟩
  · cases i with
    | jnz ra lid => exact absurd rfl (hid ra lid)
    | _ => simp [asmTokens, parseBody, parseInstr, parseMnemonic_mnemonicToken, oneOperand, twoOperands, registerPair,
        registerOperand_registerName, literalOperand_decimalText]
  · simp [asmTokens, parseBody, parseInstr, parseMnemonic_mnemonicToken, twoOperands, registerOperand_registerName]

theorem splitLabel_asmTokens (a : AsmInstr) : splitLabel (asmTokens a) = (none, asmTokens a) := by
  rcases a with i | ⟨ra, name⟩
  · cases i <;> simp [asmTokens, splitLabel, labelName_mnemonicToken]
  · simp [asmTokens, splitLabel, labelName_mnemonicToken]

end

theorem labelName_colon {name : Token} (hne : name ≠ []) (hcolon : ':' ∉ name) :
    labelName (name ++ [':']) = some name := by
  simp [labelName, hne, hcolon]

theorem tokens_canonicalText (label : Option Token) {a : AsmInstr} (ha : ∀ t ∈ asmTokens a, IsWord t)
    (hlabel : ∀ name, label = some name → ∀ ch ∈ name, isBlank ch = false) :
    tokens (canonicalText label a) = (label.map (· ++ [':'])).toList ++ asmTokens a := by
  rcases label with _ | name
  · exact tokens_intercalate ha
  · have hword : IsWord (name ++ [':']) := by
      refine ⟨by simp, fun ch hch => ?_⟩
      rcases List.mem_append.1 hch with h | h
      · exact hlabel name rfl ch h
      · obtain rfl := List.mem_singleton.1 h
        rfl
    have htext : canonicalText (some name) a = (name ++ [':']) ++ ' ' :: List.intercalate [' '] (asmTokens a) := by
      simp [canonicalText]
    rw [htext, tokens_word_space hword, tokens_intercalate ha]
    rfl

/-- Settles O53: the line splits into its tokens again, and each operand's text reads back. -/
theorem canonicalTextTranslatesBack : Obligations.CanonicalTextTranslatesBack := by
  intro label a hlabel hid hname
  have htokens := tokens_canonicalText label (asmTokens_isWord hname) (fun name h => (hlabel name h).2.2)
  rw [parseLine, htokens]
  rcases label with _ | name
  · simp [splitLabel_asmTokens, parseBody_asmTokens hid]
  · obtain ⟨hne, hcolon, -⟩ := hlabel name rfl
    simp [splitLabel, labelName_colon hne hcolon, parseBody_asmTokens hid]

end Sys2Proof.Machine

/-! PROOFS. What the translator builds is legal (spec/30_encoding.md R78, R81). -/

namespace Sys2Proof.Machine

theorem nodup_internName {names : List (Token × LabelEntry)} (name : Token) (h : (names.map Prod.fst).Nodup) :
    ((internName names name).map Prod.fst).Nodup := by
  rw [internName_fst]
  split
  · exact h
  · exact List.nodup_append_comm.1 (List.nodup_cons.2 ⟨by assumption, h⟩)

theorem translateFrom_nodup (lines : List (List Char)) (n : Nat) {t : Translation} (h : (t.names.map Prod.fst).Nodup) :
    ((translateFrom n t lines).names.map Prod.fst).Nodup := by
  induction lines generalizing n t with
  | nil => exact h
  | cons line rest ih =>
    have hseen : ((mentionLabel (parseLine line).1 t).names.map Prod.fst).Nodup := by
      cases (parseLine line).1 with
      | none => exact h
      | some name => exact nodup_internName name h
    simp only [translateFrom]
    split
    · exact hseen
    · exact ih _ hseen
    · rename_i a _
      refine ih _ ?_
      have hreg := (registerLabel_fst n (parseLine line).1 (mentionLabel (parseLine line).1 t)).symm ▸ hseen
      cases a with
      | plain i => exact hreg
      | jnz ra name => exact nodup_internName name hreg

/-- Settles O56: no name is interned twice, and every word is its instruction's encoding. -/
theorem translatedImageIsLegal : Obligations.TranslatedImageIsLegal := by
  refine fun lines => ⟨translateFrom_nodup lines 1 List.nodup_nil, List.length_map _, fun a w h => ?_⟩
  obtain ⟨i, hi, rfl⟩ := Option.map_eq_some_iff.1 ((List.getElem?_map ..).symm.trans h)
  exact ⟨i, hi, decode_encode i⟩

end Sys2Proof.Machine

/-! PROOFS. The translator against R78's words about a whole file: after any lines its label table and program are
those of the names and the instruction lines seen so far. -/

namespace Sys2Proof.Machine

theorem firstAppearances_append_singleton (names : List Token) (name : Token) :
    firstAppearances (names ++ [name]) =
      if name ∈ firstAppearances names then firstAppearances names else firstAppearances names ++ [name] := by
  rw [firstAppearances, List.foldl_append]
  rfl

theorem mem_firstAppearances {names : List Token} {name : Token} : name ∈ firstAppearances names ↔ name ∈ names := by
  induction names using List.reverseRecOn with
  | nil => rfl
  | append_singleton names last ih =>
    rw [firstAppearances_append_singleton]
    split
    · rename_i hlast
      exact ⟨fun h => List.mem_append_left _ (ih.1 h),
        fun h => (List.mem_append.1 h).elim ih.2 fun he => List.mem_singleton.1 he ▸ hlast⟩
    · rw [List.mem_append, List.mem_append, ih]

theorem firstAppearances_prefix (names more : List Token) :
    firstAppearances names <+: firstAppearances (names ++ more) := by
  induction more using List.reverseRecOn with
  | nil => simp
  | append_singleton more last ih =>
    rw [← List.append_assoc, firstAppearances_append_singleton]
    split
    · exact ih
    · exact ih.trans (List.prefix_append ..)

/-- A jnz's label operand. -/
def operandNames : AsmInstr → List Token
  | .plain _ => []
  | .jnz _ name => [name]

section
variable {line : List Char} {label : Option Token} (rest : List (List Char))

theorem lineNames_of_instr {a : AsmInstr} (h : parseLine line = (label, .ok (some a))) :
    lineNames line = label.toList ++ operandNames a := by
  cases a <;> simp [lineNames, h, operandNames]

theorem lineNames_of_no_instr (h : parseLine line = (label, .ok none)) : lineNames line = label.toList := by
  simp [lineNames, h]

theorem builtLines_cons_of_instr {a : AsmInstr} (h : parseLine line = (label, .ok (some a))) :
    builtLines (line :: rest) = (label, a) :: builtLines rest := by
  simp [builtLines, h]

theorem builtLines_cons_of_no_instr (h : parseLine line = (label, .ok none)) :
    builtLines (line :: rest) = builtLines rest := by
  simp [builtLines, h]

end

theorem entryOf_append_singleton (built : List (Option Token × AsmInstr)) (p : Option Token × AsmInstr) (name : Token) :
    entryOf (built ++ [p]) name =
      if entryOf built name = .unbound ∧ p.1 = some name then .bound built.length else entryOf built name := by
  unfold entryOf
  rw [List.findIdx?_append]
  rcases hk : List.findIdx? _ built with _ | k
  · by_cases hp : p.1 = some name <;> simp [List.findIdx?_cons, hp]
  · simp

theorem entryOf_of_not_mem {built : List (Option Token × AsmInstr)} {name : Token}
    (h : ∀ p ∈ built, p.1 ≠ some name) : entryOf built name = .unbound := by
  have : built.findIdx? (fun p => p.1 == some name) = none := by
    simpa [List.findIdx?_eq_none_iff] using h
  simp [entryOf, this]

/-- The label table that R78 gives to the names `seen` and the instruction lines `built`. -/
def tableOf (seen : List Token) (built : List (Option Token × AsmInstr)) : List (Token × LabelEntry) :=
  (firstAppearances seen).map (fun name => (name, entryOf built name))

section
variable {seen : List Token} {built : List (Option Token × AsmInstr)}

@[simp] theorem tableOf_fst : (tableOf seen built).map Prod.fst = firstAppearances seen := by
  simp [tableOf, Function.comp_def]

@[simp] theorem tableOf_snd : (tableOf seen built).map Prod.snd = (firstAppearances seen).map (entryOf built) := by
  simp [tableOf, Function.comp_def]

/-- A name that labels no built line is added Unbound. -/
theorem internName_tableOf (h : ∀ p ∈ built, ∀ name ∈ p.1, name ∈ seen) (name : Token) :
    internName (tableOf seen built) name = tableOf (seen ++ [name]) built := by
  rw [internName, tableOf_fst, tableOf, tableOf, firstAppearances_append_singleton]
  by_cases hseen : name ∈ firstAppearances seen
  · rw [if_pos hseen, if_pos hseen]
  · have hentry : entryOf built name = .unbound :=
      entryOf_of_not_mem fun p hp hname => hseen (mem_firstAppearances.2 (h p hp name hname))
    simp [hseen, hentry]

theorem isBound_tableOf_iff (name : Token) :
    isBound (tableOf seen built) name = true ↔ name ∈ seen ∧ entryOf built name ≠ .unbound := by
  simp [isBound, tableOf, mem_firstAppearances]

/-- Registering the label of the next line gives the table with that line among the built ones. -/
theorem registerLabel_tableOf {t : Translation} (ht : t.names = tableOf seen built)
    (hlen : t.program.length = built.length) (n : Nat) {label : Option Token} (hlabel : ∀ name ∈ label, name ∈ seen)
    (a : AsmInstr) : (registerLabel n label t).names = tableOf seen (built ++ [(label, a)]) := by
  rcases label with _ | name
  · simp [ht, tableOf, entryOf_append_singleton]
  have hb := isBound_tableOf_iff (seen := seen) (built := built) name
  rw [← ht] at hb
  rcases h : isBound t.names name with _ | _
  · have hentry : entryOf built name = .unbound := by simpa [h, hlabel name rfl] using hb
    rw [registerLabel_names_of_unbound n h, ht, hlen, bindName, tableOf, tableOf, List.map_map]
    refine List.map_congr_left fun other _ => ?_
    by_cases ho : other = name
    · simp [entryOf_append_singleton, ho, hentry]
    · simp [entryOf_append_singleton, ho, Ne.symm ho]
  · have hentry : entryOf built name ≠ .unbound := (hb.1 h).2
    rw [registerLabel_names_of_bound n h, ht, tableOf, tableOf]
    refine List.map_congr_left fun other _ => ?_
    have hskip : ¬ (entryOf built other = .unbound ∧ some name = some other) := by
      rintro ⟨hu, hname⟩
      exact hentry (Option.some.inj hname ▸ hu)
    rw [entryOf_append_singleton, if_neg hskip]

end

theorem appendInstr_names (a : AsmInstr) (t : Translation) :
    (appendInstr a t).names = (operandNames a).foldl internName t.names := by
  cases a <;> rfl

theorem appendInstr_program (a : AsmInstr) (t : Translation) :
    (appendInstr a t).program = t.program ++ [resolved ((appendInstr a t).names.map Prod.fst) a] := by
  cases a <;> rfl

/-- An ID once given stays: later names come behind it. -/
theorem resolved_of_prefix {ids more : List Token} (hp : ids <+: more) {a : AsmInstr}
    (h : ∀ name ∈ operandNames a, name ∈ ids) : resolved more a = resolved ids a := by
  obtain ⟨rest, rfl⟩ := hp
  cases a with
  | plain i => rfl
  | jnz ra name => simp [resolved, List.idxOf_append_of_mem (h name (by simp [operandNames]))]

/-- The translation that R78 gives after lines with the names `seen` and the instruction lines `built`. -/
structure Builds (seen : List Token) (built : List (Option Token × AsmInstr)) (t : Translation) : Prop where
  names    : t.names = tableOf seen built
  program  : t.program = built.map (fun p => resolved (firstAppearances seen) p.2)
  labels   : ∀ p ∈ built, ∀ name ∈ p.1, name ∈ seen
  operands : ∀ p ∈ built, ∀ name ∈ operandNames p.2, name ∈ seen

section
variable {seen : List Token} {built : List (Option Token × AsmInstr)} {t : Translation}

theorem Builds.program_append (h : Builds seen built t) (more : List Token) :
    t.program = built.map (fun p => resolved (firstAppearances (seen ++ more)) p.2) := by
  rw [h.program]
  refine List.map_congr_left fun p hp => (resolved_of_prefix (firstAppearances_prefix seen more) ?_).symm
  exact fun name hname => mem_firstAppearances.2 (h.operands p hp name hname)

theorem Builds.mentionLabel (h : Builds seen built t) (label : Option Token) :
    Builds (seen ++ label.toList) built (mentionLabel label t) := by
  rcases label with _ | name
  · simpa using h
  · exact
      { names := by rw [mentionLabel_some_names, h.names, internName_tableOf h.labels]; rfl
        program := by rw [mentionLabel_program, h.program_append]
        labels := fun p hp x hx => List.mem_append_left _ (h.labels p hp x hx)
        operands := fun p hp x hx => List.mem_append_left _ (h.operands p hp x hx) }

theorem Builds.appendLine (h : Builds seen built t) (n : Nat) {label : Option Token}
    (hlabel : ∀ name ∈ label, name ∈ seen) (a : AsmInstr) :
    Builds (seen ++ operandNames a) (built ++ [(label, a)]) (appendInstr a (registerLabel n label t)) := by
  have hlabels : ∀ p ∈ built ++ [(label, a)], ∀ name ∈ p.1, name ∈ seen :=
    List.forall_mem_append.2 ⟨h.labels, List.forall_mem_singleton.2 hlabel⟩
  have hreg := registerLabel_tableOf h.names (by simp [h.program]) n hlabel a
  have hnames : (appendInstr a (registerLabel n label t)).names =
      tableOf (seen ++ operandNames a) (built ++ [(label, a)]) := by
    rw [appendInstr_names, hreg]
    cases a with
    | plain i => simp [operandNames]
    | jnz ra name => exact internName_tableOf hlabels name
  refine ⟨hnames, ?_, fun p hp x hx => List.mem_append_left _ (hlabels p hp x hx), fun p hp x hx => ?_⟩
  · rw [appendInstr_program, hnames, registerLabel_program, h.program_append (operandNames a), tableOf_fst]
    simp
  · rcases List.mem_append.1 hp with hp | hp
    · exact List.mem_append_left _ (h.operands p hp x hx)
    · obtain rfl := List.mem_singleton.1 hp
      exact List.mem_append_right _ hx

end

theorem builds_translateFrom {seen : List Token} {built : List (Option Token × AsmInstr)} {t : Translation} {n : Nat}
    (lines : List (List Char)) (h : Builds seen built t) (hok : (translateFrom n t lines).failure = none) :
    Builds (seen ++ lines.flatMap lineNames) (built ++ builtLines lines) (translateFrom n t lines) := by
  induction lines generalizing n t seen built with
  | nil => simpa [builtLines, translateFrom] using h
  | cons line rest ih =>
    rcases hline : parseLine line with ⟨label, e | _ | a⟩ <;> simp only [translateFrom, hline] at hok ⊢
    · cases hok
    · have := ih (h.mentionLabel label) hok
      simpa [builtLines_cons_of_no_instr rest hline, lineNames_of_no_instr hline] using this
    · have hseen : ∀ name ∈ label, name ∈ seen ++ label.toList :=
        fun name hname => List.mem_append_right _ (Option.mem_toList.2 hname)
      have := ih ((h.mentionLabel label).appendLine n hseen a) hok
      simpa [builtLines_cons_of_instr rest hline, lineNames_of_instr hline] using this

/-- Settles O55, by induction on the lines. -/
theorem labelTableNamesTheFilesLabels : Obligations.LabelTableNamesTheFilesLabels := by
  intro lines hok
  have hempty : Builds [] [] emptyTranslation := ⟨rfl, rfl, nofun, nofun⟩
  have h := builds_translateFrom lines hempty hok
  rw [List.nil_append, List.nil_append] at h
  refine ⟨?_, ?_, h.program⟩
  · rw [translate, h.names, tableOf_fst]
  · rw [translationImage, translate, h.names, tableOf_snd]

end Sys2Proof.Machine

/-! PROOFS. The checker's outputs against the exact result, and the quotients that are int32 values
(spec/40_arithmetic.md R101 to R105, R111, R112). -/

namespace Sys2Proof.Machine

/-- `res` is the truncated exact result, overflow or not. -/
theorem s32_check_res (op : CheckOp) (a b : Word) : s32 (check op a b).res = trunc32 (exactResult op a b) := by
  cases op with
  | add => exact s32_add a b
  | sub => exact s32_sub a b
  | mul => rw [(check_mul a b).1, s32_setWidth, toInt_sext64_mul, exactResult]

theorem check_ovf_iff_outside (op : CheckOp) (a b : Word) :
    (check op a b).ovf = true ↔ exactResult op a b < intMin ∨ exactResult op a b > intMax := by
  rw [check_ovf_iff]
  omega

theorem s32_check_res_of_fits {op : CheckOp} {a b : Word}
    (h : intMin ≤ exactResult op a b ∧ exactResult op a b ≤ intMax) : s32 (check op a b).res = exactResult op a b := by
  rw [s32_check_res, (trunc32_eq_self_iff _).2 h]

theorem check_dir_over_iff (op : CheckOp) (a b : Word) :
    (check op a b).dir = some .over ↔ exactResult op a b > intMax := by
  refine ⟨fun h => ?_, fun h => ?_⟩
  · obtain ⟨-, h⟩ | ⟨h, -⟩ := exactResult_of_dir h
    · exact h
    · cases h
  · rw [check_dir, if_pos ((check_ovf_iff_outside op a b).2 (.inr h)), directionOf, if_pos h]

theorem check_dir_under_iff (op : CheckOp) (a b : Word) :
    (check op a b).dir = some .under ↔ exactResult op a b < intMin := by
  refine ⟨fun h => ?_, fun h => ?_⟩
  · obtain ⟨h, -⟩ | ⟨-, h⟩ := exactResult_of_dir h
    · cases h
    · exact h
  · have hmax : ¬ exactResult op a b > intMax := by
      unfold intMin at h
      unfold intMax
      omega
    rw [check_dir, if_pos ((check_ovf_iff_outside op a b).2 (.inl h)), directionOf, if_neg hmax]

theorem check_dir_of_fits {op : CheckOp} {a b : Word}
    (h : intMin ≤ exactResult op a b ∧ exactResult op a b ≤ intMax) : (check op a b).dir = none := by
  rw [check_dir, if_neg fun hovf => (check_ovf_iff op a b).1 hovf h]

/-- Settles O13. -/
theorem checkerPredicatesAreTheRules : Obligations.CheckerPredicatesAreTheRules := by
  refine fun a b => ⟨⟨s32_check_res .add a b, ?_⟩, ⟨s32_check_res .sub a b, ?_⟩, toInt_sext64_mul a b,
    s32_check_res .mul a b, ?_⟩
  · rw [(check_add a b).1, (check_add a b).2, Bool.and_eq_true, beq_iff_eq, bne_iff_ne]
  · rw [(check_sub a b).1, (check_sub a b).2, ← decide_eq_true_iff (p := s32 _ < 0), ← signBit_eq_neg, signBit]
  · rw [s32_check_res, mul_ovf_iff, exactResult]

/-- Settles O14. -/
theorem checkerIsExact : Obligations.CheckerIsExact := by
  refine fun op a b => ⟨check_ovf_iff_outside op a b, fun h => s32_check_res_of_fits ?_⟩
  by_contra hout
  rw [(check_ovf_iff op a b).2 hout] at h
  cases h

/-! R105's tests on the operands: which bound a result outside int32 has crossed. -/

/-- Adding or subtracting an int32 moves `a` by at most 2^31, so it leaves int32 on the side of `a`'s sign. -/
theorem over_iff_sign_of_near {a : Word} {e : Int} (h : e < intMin ∨ e > intMax)
    (hlo : s32 a - 2147483648 ≤ e) (hhi : e ≤ s32 a + 2147483648) : e > intMax ↔ signBit a = false := by
  rw [signBit_eq_neg, decide_eq_false_iff_not]
  unfold intMin intMax at *
  omega

/-- A product outside int32 is not 0, and it is positive exactly when the signs are equal. -/
theorem mul_over_iff_sign {a b : Word} (h : s32 a * s32 b < intMin ∨ s32 a * s32 b > intMax) :
    s32 a * s32 b > intMax ↔ signBit a = signBit b := by
  unfold intMin intMax at *
  have hne : s32 a * s32 b ≠ 0 := by omega
  have hpos := mul_pos_iff (a := s32 a) (b := s32 b)
  obtain ⟨ha, hb⟩ := mul_ne_zero_iff.1 hne
  rw [signBit_eq_neg, signBit_eq_neg, decide_eq_decide]
  omega

/-- Settles O15. -/
theorem checkerDirectionNamesTheCrossedBound : Obligations.CheckerDirectionNamesTheCrossedBound := by
  refine ⟨fun op a b => ⟨check_dir_over_iff op a b, check_dir_under_iff op a b⟩, rfl, rfl, fun a b h => ?_,
    fun a b h => ?_, fun a b h => ?_⟩ <;> rw [check_ovf_iff_outside] at h <;> rw [check_dir_over_iff]
  · have hb := s32_range b
    exact over_iff_sign_of_near h (by rw [exactResult]; omega) (by rw [exactResult]; omega)
  · have hb := s32_range b
    exact over_iff_sign_of_near h (by rw [exactResult]; omega) (by rw [exactResult]; omega)
  · exact mul_over_iff_sign h

/-- Settles O16: the quotient is Lean's truncating division, and its definition gives the sign where the magnitude is
not 0. -/
theorem quotientTruncatesTowardZero : Obligations.QuotientTruncatesTowardZero := by
  refine ⟨fun a b _ => tdiv_eq a b, fun a b _ => ?_, fun a b _ hne => ?_, by decide⟩
  · rw [tdiv_eq]
    exact Int.natAbs_tdiv a b
  · have hmag : a.natAbs / b.natAbs ≠ 0 := fun h0 => hne (by simp [tdiv, h0])
    rw [tdiv, Int.sign_mul, Int.sign_mul, Int.sign_sign, Int.sign_sign, Int.sign_natCast_of_ne_zero hmag, mul_one]

/-- Away from INT_MIN / −1 the quotient is the value of the patterns' quotient. -/
theorem tdiv_fits {a b : Word} (h : ¬ (s32 a = intMin ∧ s32 b = -1)) :
    intMin ≤ tdiv (s32 a) (s32 b) ∧ tdiv (s32 a) (s32 b) ≤ intMax := by
  have hq : s32 (a.sdiv b) = tdiv (s32 a) (s32 b) := by
    rw [s32_eq_intMin_iff, s32_eq_neg_one_iff, not_and_or] at h
    rw [tdiv_eq]
    exact BitVec.toInt_sdiv_of_ne_or_ne a b h
  rw [← hq]
  exact s32_range _

theorem fitsInt32_eq_false_iff (v : Int) : fitsInt32 v = false ↔ v < intMin ∨ v > intMax := by
  rw [← Bool.not_eq_true, fitsInt32_iff]
  omega

theorem tdiv_not_fits_iff (a b : Word) :
    fitsInt32 (tdiv (s32 a) (s32 b)) = false ↔ s32 a = intMin ∧ s32 b = -1 := by
  refine ⟨fun h => ?_, fun ⟨ha, hb⟩ => ?_⟩
  · by_contra hne
    rw [(fitsInt32_iff _).2 (tdiv_fits hne)] at h
    cases h
  · rw [ha, hb]
    decide

end Sys2Proof.Machine

/-! PROOFS. The two ends of add, sub, mul and div: an exact result that is an int32 is written, and an exception's
condition raises it (spec/40_arithmetic.md R106 to R114). -/

namespace Sys2Proof.Machine

theorem checkedResult_of_dir {op : CheckOp} {ra rb : Reg} {s : State} {d : Direction}
    (h : (check op (readReg s ra) (readReg s rb)).dir = some d) :
    checkedResult op ra rb s = .raised (.arithmeticOverflow ra rb (readReg s ra) (readReg s rb) d) := by
  simp only [checkedResult, h]

theorem checkedResult_of_over {op : CheckOp} {ra rb : Reg} {s : State}
    (h : exactResult op (readReg s ra) (readReg s rb) > intMax) :
    checkedResult op ra rb s = .raised (.arithmeticOverflow ra rb (readReg s ra) (readReg s rb) .over) :=
  checkedResult_of_dir ((check_dir_over_iff ..).2 h)

theorem checkedResult_of_under {op : CheckOp} {ra rb : Reg} {s : State}
    (h : exactResult op (readReg s ra) (readReg s rb) < intMin) :
    checkedResult op ra rb s = .raised (.arithmeticOverflow ra rb (readReg s ra) (readReg s rb) .under) :=
  checkedResult_of_dir ((check_dir_under_iff ..).2 h)

theorem checkedResult_of_fits {op : CheckOp} {ra rb : Reg} {s : State}
    (h : intMin ≤ exactResult op (readReg s ra) (readReg s rb) ∧
      exactResult op (readReg s ra) (readReg s rb) ≤ intMax) :
    checkedResult op ra rb s =
      .done .advance (some (ra, u32 (exactResult op (readReg s ra) (readReg s rb)))) none := by
  simp only [checkedResult, check_dir_of_fits h]
  rw [← s32_check_res_of_fits h, u32_s32]

/-- An exception whose condition holds is what the instruction's execution returns. -/
theorem resultOf_of_raises {i : Instr} {s : State} {e : Exc} (h : Raises s i e) : resultOf i s = .raised e := by
  cases h with
  | addOver ra rb h => exact checkedResult_of_over (op := .add) h
  | addUnder ra rb h => exact checkedResult_of_under (op := .add) h
  | subOver ra rb h => exact checkedResult_of_over (op := .sub) h
  | subUnder ra rb h => exact checkedResult_of_under (op := .sub) h
  | mulOver ra rb h => exact checkedResult_of_over (op := .mul) h
  | mulUnder ra rb h => exact checkedResult_of_under (op := .mul) h
  | divZero ra rb h => exact if_pos ((s32_eq_zero_iff _).2 h)
  | divOver ra rb ha hb => exact (if_neg (by rw [hb]; decide)).trans (if_pos ⟨ha, hb⟩)
  | unbound ra lid h hl => simp only [resultOf, jnzResult, s32_eq_zero_iff, if_neg h, hl]

theorem exec_of_raises {i : Instr} {s : State} {e : Exc} (h : Raises s i e) :
    exec i s = .next (raiseException (encode i) e s) := by
  rw [exec_eq, resultOf_of_raises h, finish_raised]

/-- ArithmeticOverflow in full (spec/60_exceptions.md R201, R205). -/
theorem exec_of_arithmeticOverflow {i : Instr} {s : State} {ra rb : Reg} {a b : Word} {d : Direction}
    (h : Raises s i (.arithmeticOverflow ra rb a b d)) :
    exec i s = .next { s with
      status := .faulted
      fr := { cause := 1, pc := s.pc, word := encode i, opc := i.opcode, ra := ra, rb := rb, valA := a, valB := b,
              dir := dirCode d, bound := u32 (dirBound d), label := 0 } } := by
  rw [exec_of_raises h, ← opcField_encode]
  rfl

/-- DivisionByZero in full (spec/60_exceptions.md R202, R205). -/
theorem exec_of_divisionByZero {i : Instr} {s : State} {rb : Reg} (h : Raises s i (.divisionByZero rb)) :
    exec i s = .next { s with
      status := .faulted
      fr := { cause := 2, pc := s.pc, word := encode i, opc := i.opcode, ra := 0, rb := rb, valA := 0, valB := 0,
              dir := 0, bound := 0, label := 0 } } := by
  rw [exec_of_raises h, ← opcField_encode]
  rfl

/-- R106 to R109: an exact result that is an int32 is what the instruction's execution returns. -/
theorem resultOf_of_exact {i : Instr} {s : State} {ra : Reg} {e : Int} (hw : writesReg i = some ra)
    (he : exactOf i s = some e) (hfit : intMin ≤ e ∧ e ≤ intMax) :
    resultOf i s = .done .advance (some (ra, u32 e)) none := by
  cases i with
  | add ra rb | sub ra rb | mul ra rb =>
    cases hw
    cases he
    exact checkedResult_of_fits hfit
  | div ra rb =>
    cases hw
    obtain ⟨h0, -⟩ | ⟨ha, hb, -⟩ | ⟨h0, -, hr⟩ := divResult_cases ra rb s
    · simp [exactOf, h0] at he
    · obtain rfl : tdiv intMin (-1) = e := by simpa [exactOf, ha, hb] using he
      exact absurd hfit (by decide)
    · obtain rfl : tdiv _ _ = e := by simpa [exactOf, h0] using he
      exact hr
  | mov | out | jnz => cases he

theorem exec_of_exact {i : Instr} {s : State} {ra : Reg} {e : Int} (hw : writesReg i = some ra)
    (he : exactOf i s = some e) (hfit : intMin ≤ e ∧ e ≤ intMax) :
    ∃ v, s32 v = e ∧ exec i s = .next { writeReg s ra v with pc := s.pc + 1 } := by
  refine ⟨u32 e, s32_u32_of_fits hfit, ?_⟩
  rw [exec_eq, resultOf_of_exact hw he hfit]
  rfl

/-- Settles O18. -/
theorem addWritesTheExactSumOrRaises : Obligations.AddWritesTheExactSumOrRaises :=
  fun ra rb _ => ⟨opcField_encode _, fun hlo hhi => exec_of_exact rfl rfl ⟨hlo, hhi⟩,
    fun h => exec_of_arithmeticOverflow (.addOver ra rb h), fun h => exec_of_arithmeticOverflow (.addUnder ra rb h)⟩

/-- Settles O19. -/
theorem subWritesTheExactDifferenceOrRaises : Obligations.SubWritesTheExactDifferenceOrRaises :=
  fun ra rb _ => ⟨opcField_encode _, fun hlo hhi => exec_of_exact rfl rfl ⟨hlo, hhi⟩,
    fun h => exec_of_arithmeticOverflow (.subOver ra rb h), fun h => exec_of_arithmeticOverflow (.subUnder ra rb h)⟩

/-- Settles O20. -/
theorem mulWritesTheExactProductOrRaises : Obligations.MulWritesTheExactProductOrRaises :=
  fun ra rb _ => ⟨opcField_encode _, fun hlo hhi => exec_of_exact rfl rfl ⟨hlo, hhi⟩,
    fun h => exec_of_arithmeticOverflow (.mulOver ra rb h), fun h => exec_of_arithmeticOverflow (.mulUnder ra rb h)⟩

/-- Settles O21: outside its two exceptions the quotient is an int32. -/
theorem divWritesTheQuotientOrRaises : Obligations.DivWritesTheQuotientOrRaises := by
  refine fun ra rb s => ⟨opcField_encode _, fun h0 h1 => ?_, fun h => ?_, fun ha hb => ?_⟩
  · rw [← tdiv_eq]
    exact exec_of_exact rfl (if_neg h0) (tdiv_fits h1)
  · exact exec_of_divisionByZero (.divZero ra rb ((s32_eq_zero_iff _).1 h))
  · exact exec_of_arithmeticOverflow (.divOver ra rb ha hb)

/-- Settles O17. -/
theorem divOverflowsOnlyAtIntMinByMinusOne : Obligations.DivOverflowsOnlyAtIntMinByMinusOne :=
  ⟨fun a b _ => tdiv_not_fits_iff a b,
    fun ra rb _ ha hb => ⟨_, exec_of_raises (.divOver ra rb ha hb), rfl, rfl, rfl, rfl, rfl⟩⟩

/-- R114: add, sub, mul and div raise an exception wherever no exact result is an int32. -/
theorem exists_raises_of_not_fits {i : Instr} {ra : Reg} {s : State}
    (hi : ∃ rb, i = .add ra rb ∨ i = .sub ra rb ∨ i = .mul ra rb ∨ i = .div ra rb)
    (h : ∀ e, exactOf i s = some e → fitsInt32 e = false) : ∃ x, Raises s i x := by
  obtain ⟨rb, rfl | rfl | rfl | rfl⟩ := hi
  · obtain hu | ho := (fitsInt32_eq_false_iff _).1 (h _ rfl)
    · exact ⟨_, .addUnder ra rb hu⟩
    · exact ⟨_, .addOver ra rb ho⟩
  · obtain hu | ho := (fitsInt32_eq_false_iff _).1 (h _ rfl)
    · exact ⟨_, .subUnder ra rb hu⟩
    · exact ⟨_, .subOver ra rb ho⟩
  · obtain hu | ho := (fitsInt32_eq_false_iff _).1 (h _ rfl)
    · exact ⟨_, .mulUnder ra rb hu⟩
    · exact ⟨_, .mulOver ra rb ho⟩
  · by_cases h0 : s32 (readReg s rb) = 0
    · exact ⟨_, .divZero ra rb ((s32_eq_zero_iff _).1 h0)⟩
    · obtain ⟨ha, hb⟩ := (tdiv_not_fits_iff _ _).1 (h _ (if_neg h0))
      exact ⟨_, .divOver ra rb ha hb⟩

theorem cause_of_raises_of_writes {i : Instr} {s : State} {x : Exc} {ra : Reg} (h : Raises s i x)
    (hw : writesReg i = some ra) : causeCode x = 1 ∨ causeCode x = 2 := by
  cases h with
  | unbound => cases hw
  | divZero => exact .inr rfl
  | _ => exact .inl rfl

/-- Settles O27: an exact result in int32 is written, and without one an exception's condition holds. -/
theorem arithmeticNeverWrapsSilently : Obligations.ArithmeticNeverWrapsSilently := by
  intro i ra s t hi ht
  have hw : writesReg i = some ra := by
    obtain ⟨rb, rfl | rfl | rfl | rfl⟩ := hi <;> rfl
  by_cases hfit : ∃ e, exactOf i s = some e ∧ fitsInt32 e = true
  · obtain ⟨e, he, hf⟩ := hfit
    obtain ⟨v, hv, hexec⟩ := exec_of_exact hw he ((fitsInt32_iff e).1 hf)
    cases hexec.symm.trans ht
    exact .inl ⟨e, he, (congrArg s32 (readReg_writeReg_same s ra v)).trans hv, rfl, rfl⟩
  · have hnot : ∀ e, exactOf i s = some e → fitsInt32 e = false := by simpa using hfit
    obtain ⟨x, hx⟩ := exists_raises_of_not_fits hi hnot
    cases (exec_of_raises hx).symm.trans ht
    have hcause := cause_of_raises_of_writes hx hw
    exact .inr ⟨rfl, by simpa using hcause, rfl, rfl, hnot⟩

end Sys2Proof.Machine

/-! PROOFS. mov and out in full, and the sink's text of an emitted value (spec/41_move_output.md R140 to R142). -/

namespace Sys2Proof.Machine

/-- Settles O22. -/
theorem movWritesTheLiteral : Obligations.MovWritesTheLiteral := by
  intro ra lit s
  obtain ⟨hopc, -, -, -, himm⟩ := Laws.EncodedFields.mov ra lit
  refine ⟨hopc, congrArg s32 himm, ?_⟩
  rw [exec_eq]
  rfl

/-- Settles O23. -/
theorem outEmitsTheRegister : Obligations.OutEmitsTheRegister := by
  refine fun ra s => ⟨opcField_encode _, ?_⟩
  rw [exec_eq]
  rfl

theorem digitChar_ne_zero {d : Nat} (hpos : 0 < d) (h : d < 10) : digitChar d ≠ '0' := fun he => by
  have hd : 48 + d = 48 := (digitChar_toNat h).symm.trans (congrArg Char.toNat he)
  omega

/-- The digits of a positive number begin with a digit other than 0: dropping the last digit of a number of at least
10 leaves a positive number. -/
theorem decimalDigits_leading_ne_zero {fuel n : Nat} (hpos : 0 < n) (h : n < 10 ^ fuel) :
    ∃ ch rest, decimalDigits fuel n = ch :: rest ∧ ch ≠ '0' := by
  induction fuel generalizing n with
  | zero => omega
  | succ fuel ih =>
    simp only [decimalDigits]
    split
    · exact ⟨_, [], rfl, digitChar_ne_zero hpos ‹_›⟩
    · obtain ⟨ch, rest, hds, hch⟩ := ih (n := n / 10) (by omega) (by omega)
      exact ⟨ch, rest ++ [digitChar (n % 10)], by rw [hds, List.cons_append], hch⟩

theorem decimalDigits_eq_zero_of_leading_zero {n : Nat} (h : n < 10 ^ 10)
    (hhead : (decimalDigits 10 n).head? = some '0') : decimalDigits 10 n = ['0'] := by
  obtain rfl | hpos := Nat.eq_zero_or_pos n
  · rfl
  · obtain ⟨ch, rest, hds, hch⟩ := decimalDigits_leading_ne_zero hpos h
    rw [hds] at hhead
    exact absurd (Option.some.inj hhead) hch

theorem decimalText_eq (v : Int) : decimalText v = (if v < 0 then ['-'] else []) ++ decimalDigits 10 v.natAbs := by
  unfold decimalText
  split <;> rfl

/-- Settles O51: the digits are those of the magnitude, which has at most ten. -/
theorem sinkTextIsDecimal : Obligations.SinkTextIsDecimal := by
  intro c v
  have hlt := natAbs_s32_lt v
  have hparse := parseDigits_decimalDigits hlt
  obtain ⟨hne, hdigit, -⟩ := parseDigits_eq_some_iff.1 hparse
  exact ⟨_, hne, hdigit, decimalDigits_eq_zero_of_leading_zero hlt, hparse, by rw [sinkLine, decimalText_eq]⟩

end Sys2Proof.Machine

/-! PROOFS. jnz in full and the branch unit that drives it (spec/42_control.md R161, R166). -/

namespace Sys2Proof.Machine

section
variable {ra : Reg} {lid : LabelId} {s : State}

theorem exec_jnz_of_zero (h : s32 (readReg s ra) = 0) : exec (.jnz ra lid) s = .next { s with pc := s.pc + 1 } := by
  rw [exec_eq, resultOf, jnzResult, if_pos h]
  rfl

theorem exec_jnz_of_bound {a : Nat} (h : s32 (readReg s ra) ≠ 0) (hl : labelLookup s lid = .bound a) :
    exec (.jnz ra lid) s = .next { s with pc := a } := by
  rw [exec_eq, resultOf, jnzResult, if_neg h, hl]
  rfl

end

/-- UnknownLabel in full (spec/60_exceptions.md R203, R205). -/
theorem exec_of_unknownLabel {i : Instr} {s : State} {lid : LabelId} (h : Raises s i (.unknownLabel lid)) :
    exec i s = .next { s with
      status := .faulted
      fr := { cause := 3, pc := s.pc, word := encode i, opc := i.opcode, ra := 0, rb := 0, valA := 0, valB := 0,
              dir := 0, bound := 0, label := lid } } := by
  rw [exec_of_raises h, ← opcField_encode]
  rfl

/-- Settles O24. -/
theorem jnzJumpsWhenNonZero : Obligations.JnzJumpsWhenNonZero :=
  fun ra lid _ => ⟨opcField_encode _, exec_jnz_of_zero, fun h _ hl => exec_jnz_of_bound h hl,
    fun h hl => exec_of_unknownLabel (.unbound ra lid (mt (s32_eq_zero_iff _).2 h) hl)⟩

theorem labelPort_bound_iff (fl : Floating) (s : State) (lid : LabelId) :
    (labelPort fl s lid).1 = true ↔ labelLookup s lid = .bound (labelPort fl s lid).2 := by
  rcases hl : labelLookup s lid with a | _ <;> simp [labelPort, hl]

theorem labelPort_unbound_iff (fl : Floating) (s : State) (lid : LabelId) :
    (labelPort fl s lid).1 = false ↔ labelLookup s lid = .unbound := by
  rcases hl : labelLookup s lid with a | _ <;> simp [labelPort, hl]

section
variable (x : Word) (bound : Bool) (addr : Nat)

theorem branchUnit_take_iff : (branchUnit true x bound addr).take = true ↔ x ≠ 0 := by
  simp [branchUnit]

theorem branchUnit_selTarget_iff : (branchUnit true x bound addr).selTarget = true ↔ x ≠ 0 ∧ bound = true := by
  simp [branchUnit]

theorem branchUnit_unknownLabel_iff :
    (branchUnit true x bound addr).unknownLabel = true ↔ x ≠ 0 ∧ bound = false := by
  simp [branchUnit]

/-- A non-zero register selects the target or raises, as the label is bound or not. -/
theorem eq_zero_of_branchUnit_advances (hsel : (branchUnit true x bound addr).selTarget = false)
    (hunk : (branchUnit true x bound addr).unknownLabel = false) : x = 0 := by
  by_contra hx
  cases bound with
  | true => cases hsel.symm.trans ((branchUnit_selTarget_iff x true addr).2 ⟨hx, rfl⟩)
  | false => cases hunk.symm.trans ((branchUnit_unknownLabel_iff x false addr).2 ⟨hx, rfl⟩)

end

/-- Settles O34: TARGET, `unknown_label` and neither are the three cases of R161. -/
theorem branchUnitDrivesJnz : Obligations.BranchUnitDrivesJnz := by
  intro fl ra lid s
  refine ⟨branchUnit_take_iff .., ?_, ?_, rfl, (labelPort_bound_iff ..).symm, fun hsel => ?_, fun hunk => ?_,
    fun hsel hunk => ?_, fun _ _ _ => ⟨rfl, rfl, rfl, rfl⟩⟩
  · rw [branchUnit_selTarget_iff, branchUnit_take_iff]
  · rw [branchUnit_unknownLabel_iff, branchUnit_take_iff]
  · obtain ⟨hx, hb⟩ := (branchUnit_selTarget_iff ..).1 hsel
    exact exec_jnz_of_bound (mt (s32_eq_zero_iff _).1 hx) ((labelPort_bound_iff ..).1 hb)
  · obtain ⟨hx, hb⟩ := (branchUnit_unknownLabel_iff ..).1 hunk
    exact exec_of_raises (.unbound ra lid hx ((labelPort_unbound_iff ..).1 hb))
  · exact exec_jnz_of_zero ((s32_eq_zero_iff _).2 (eq_zero_of_branchUnit_advances _ _ _ hsel hunk))

end Sys2Proof.Machine

/-! PROOFS. Jump targets: none is checked, the translator's lie below the program's length, and one at or beyond N ends
the run (spec/42_control.md R163, spec/43_dispatch_step.md R181). -/

namespace Sys2Proof.Machine

theorem step_of_end {s : State} (hs : s.status = .running) (hpc : programLength s ≤ s.pc) :
    step s = .next (haltRun s) := by
  simp [step, hs, hpc]

/-- Every bound address is that of an instruction of the program. -/
def TargetsBelowEnd (t : Translation) : Prop :=
  ∀ name a, (name, .bound a) ∈ t.names → a < t.program.length

section
variable {t : Translation} {name : Token} {a : Nat}

/-- A name is interned Unbound. -/
theorem bound_mem_internName {names : List (Token × LabelEntry)} {new : Token}
    (h : (name, .bound a) ∈ internName names new) : (name, .bound a) ∈ names := by
  obtain h | h := mem_internName h
  · exact h
  · cases h

theorem bound_mem_bindName {names : List (Token × LabelEntry)} {new : Token} {addr : Nat}
    (h : (name, .bound a) ∈ bindName names new addr) : (name, .bound a) ∈ names ∨ a = addr := by
  obtain ⟨p, hp, he⟩ := List.mem_map.1 h
  split at he
  · cases he
    exact .inr rfl
  · exact .inl (he ▸ hp)

theorem bound_mem_registerLabel {n : Nat} {label : Option Token}
    (h : (name, .bound a) ∈ (registerLabel n label t).names) :
    (name, .bound a) ∈ t.names ∨ a = t.program.length := by
  rcases label with _ | new
  · exact .inl h
  rcases hb : isBound t.names new with _ | _
  · exact bound_mem_bindName (registerLabel_names_of_unbound n hb ▸ h)
  · exact .inl (registerLabel_names_of_bound n hb ▸ h)

theorem bound_mem_appendInstr {i : AsmInstr} (h : (name, .bound a) ∈ (appendInstr i t).names) :
    (name, .bound a) ∈ t.names := by
  cases i with
  | plain i => exact h
  | jnz ra new => exact bound_mem_internName h

theorem TargetsBelowEnd.mentionLabel (h : TargetsBelowEnd t) (label : Option Token) :
    TargetsBelowEnd (mentionLabel label t) := by
  rcases label with _ | new
  · exact h
  · exact fun name a ha => h name a (bound_mem_internName ha)

/-- The label of a line is bound to the old length, and the line's instruction makes the program longer. -/
theorem TargetsBelowEnd.appendLine (h : TargetsBelowEnd t) (n : Nat) (label : Option Token) (i : AsmInstr) :
    TargetsBelowEnd (appendInstr i (registerLabel n label t)) := by
  intro name a ha
  rw [appendInstr_program_length, registerLabel_program, Nat.lt_succ_iff]
  obtain hold | rfl := bound_mem_registerLabel (bound_mem_appendInstr ha)
  · exact (h name a hold).le
  · exact le_rfl

theorem translateFrom_targetsBelowEnd (lines : List (List Char)) (n : Nat) (h : TargetsBelowEnd t) :
    TargetsBelowEnd (translateFrom n t lines) := by
  induction lines generalizing n t with
  | nil => exact h
  | cons line rest ih =>
    have hseen := h.mentionLabel (parseLine line).1
    simp only [translateFrom]
    split
    · exact hseen
    · exact ih _ hseen
    · exact ih _ (hseen.appendLine n _ _)

end

/-- Settles O32. -/
theorem jumpTargetsAreUnchecked : Obligations.JumpTargetsAreUnchecked := by
  refine ⟨fun _ _ _ _ h hl => exec_jnz_of_bound h hl, fun ra lid s a hs hw h hl ha => ?_,
    fun lines => translateFrom_targetsBelowEnd lines 1 nofun⟩
  have hjump : step s = .next { s with pc := a } := (step_of_fetch hs hw).trans (exec_jnz_of_bound h hl)
  have hend : step { s with pc := a } = .next { s with pc := a, status := .halted } := step_of_end hs ha
  rw [run_succ_of_next hjump, run_succ_of_next hend, run_zero]

end Sys2Proof.Machine

/-! PROOFS. The three ways of a run: it comes to HALTED, to FAULTED, or to no end
(spec/42_control.md R165, spec/70_reset_and_hazards.md R249). -/

namespace Sys2Proof.Machine

theorem run_of_step_self {s : State} (h : step s = .next s) (k : Nat) :
    Host.Core.run Sys2Proof.core k s = .next s := by
  induction k with
  | zero => rfl
  | succ k ih => rw [run_succ_of_next h, ih]

/-- Settles O33: the state after the jump is the state before it. -/
theorem selfJumpRunsForever : Obligations.SelfJumpRunsForever :=
  fun _ _ _ hs hw h hl => run_of_step_self ((step_of_fetch hs hw).trans (exec_jnz_of_bound h hl))

theorem exists_step_next (s : State) : ∃ t, step s = .next t := by
  obtain ⟨-, he⟩ | ⟨-, -, he⟩ | ⟨-, w, -, ⟨x, -, he⟩ | ⟨i, -, he⟩⟩ := step_cases s
  · exact ⟨_, he⟩
  · exact ⟨_, he⟩
  · exact ⟨_, he⟩
  · exact ⟨_, he.trans (exec_eq i s)⟩

theorem exists_run_next (k : Nat) (s : State) : ∃ t, Host.Core.run Sys2Proof.core k s = .next t := by
  induction k generalizing s with
  | zero => exact ⟨s, rfl⟩
  | succ k ih =>
    obtain ⟨t, ht⟩ := exists_step_next s
    exact (run_succ_of_next ht k).symm ▸ ih t

/-- Once a run is over its state stays (notes/assumptions/5.md). -/
theorem run_of_not_running {s : State} (hs : s.status ≠ .running) (k : Nat) :
    Host.Core.run Sys2Proof.core k s = .next s := by
  obtain ⟨-, he⟩ | ⟨h, -⟩ | ⟨h, -⟩ := step_cases s
  · exact run_of_step_self he k
  · exact absurd h hs
  · exact absurd h hs

/-- A run that is over after some steps is over in the same state after any other number that ends it. -/
theorem run_end_unique {j k : Nat} {s t u : State} (ht : Host.Core.run Sys2Proof.core j s = .next t)
    (hu : Host.Core.run Sys2Proof.core k s = .next u) (hte : t.status ≠ .running) (hue : u.status ≠ .running) :
    t = u := by
  induction j generalizing k s with
  | zero =>
    cases ht
    cases (run_of_not_running hte k).symm.trans hu
    rfl
  | succ j ih =>
    cases k with
    | zero =>
      cases hu
      cases (run_of_not_running hue (j + 1)).symm.trans ht
      rfl
    | succ k =>
      obtain ⟨v, hv⟩ := exists_step_next s
      exact ih ((run_succ_of_next hv j).symm.trans ht) ((run_succ_of_next hv k).symm.trans hu)

/-- What holds of a run that began with the fault record `fr`: it goes on, or it has come to one of its two ends. -/
def RunStands (fr : FaultRecord) (t : State) : Prop :=
  (t.status = .running ∧ t.fr = fr) ∨ (t.status = .halted ∧ programLength t ≤ t.pc ∧ t.fr = fr) ∨
    (t.status = .faulted ∧ t.pc = t.fr.pc)

theorem step_keeps_runStands {fr : FaultRecord} {s t : State} (h : RunStands fr s) (ht : step s = .next t) :
    RunStands fr t := by
  have hfr (hs : s.status = .running) : s.fr = fr := by
    obtain ⟨-, h⟩ | ⟨h, -⟩ | ⟨h, -⟩ := h
    · exact h
    · cases hs.symm.trans h
    · cases hs.symm.trans h
  cases transition_of_step ht with
  | noRun => exact h
  | halt hs hpc => exact .inr (.inl ⟨rfl, hpc, hfr hs⟩)
  | trap => exact .inr (.inr ⟨rfl, by simp⟩)
  | instr hs => exact .inl ⟨(commit_status ..).trans hs, (commit_fr ..).trans (hfr hs)⟩

theorem runStands_of_run {k : Nat} {s t : State} (hs : s.status = .running)
    (h : Host.Core.run Sys2Proof.core k s = .next t) : RunStands s.fr t :=
  run_keeps (fun _ _ => step_keeps_runStands) h (.inl ⟨hs, rfl⟩)

/-- Settles O45: a number of steps that leaves RUNNING shows an end, and a run has one end only. -/
theorem runEndsInExactlyOneWay : Obligations.RunEndsInExactlyOneWay := by
  intro s hs halts faults hangs
  have hnot : ∀ {k t}, Host.Core.run Sys2Proof.core k s = .next t → hangs → t.status = .running := by
    intro k t ht h
    obtain ⟨u, hu, hr⟩ := h k
    cases ht.symm.trans hu
    exact hr
  refine ⟨?_, ?_, ?_, ?_⟩
  · by_cases h : hangs
    · exact .inr (.inr h)
    · obtain ⟨k, hk⟩ := not_forall.1 h
      obtain ⟨t, ht⟩ := exists_run_next k s
      obtain ⟨hr, -⟩ | ⟨he, hpc, hfr⟩ | ⟨he, hpc⟩ := runStands_of_run hs ht
      · exact absurd ⟨t, ht, hr⟩ hk
      · exact .inl ⟨k, t, ht, he, hpc, hfr⟩
      · exact .inr (.inl ⟨k, t, ht, he, hpc⟩)
  · rintro ⟨⟨j, t, ht, hte, -⟩, ⟨k, u, hu, hue, -⟩⟩
    obtain rfl := run_end_unique ht hu (by simp [hte]) (by simp [hue])
    cases hte.symm.trans hue
  · rintro ⟨⟨k, t, ht, he, -⟩, h⟩
    cases he.symm.trans (hnot ht h)
  · rintro ⟨⟨k, t, ht, he, -⟩, h⟩
    cases he.symm.trans (hnot ht h)

end Sys2Proof.Machine

/-! PROOFS. The order of a step, and what it depends on: a step reads neither the fault record nor the output stream, so
two runs of one program agree (spec/43_dispatch_step.md R181 to R187, spec/70_reset_and_hazards.md R242). -/

namespace Sys2Proof.Machine

/-- Settles O10. -/
theorem everyStepAnswersANextState : Obligations.EveryStepAnswersANextState :=
  ⟨exists_step_next, fun i s => ⟨_, exec_eq i s⟩⟩

/-- Settles O7: the fetched word is the encoding of what it decodes to. -/
theorem stepRunsTheDecodedInstruction : Obligations.StepRunsTheDecodedInstruction :=
  fun _ _ _ hs hw hd => step_of_fetch hs (hw.trans (congrArg some (encode_of_decode hd).symm))

/-- Settles O8. -/
theorem endCheckHaltsFirst : Obligations.EndCheckHaltsFirst :=
  ⟨fun _ hs hpc => step_of_end hs hpc, fun s hn => step_of_end (startRun_status s) hn.le⟩

theorem step_of_not_running {s : State} (hs : s.status ≠ .running) : step s = .next s := by
  obtain ⟨-, he⟩ | ⟨h, -⟩ | ⟨h, -⟩ := step_cases s
  · exact he
  · exact absurd h hs
  · exact absurd h hs

/-- The fault record and the output stream before the end of an instruction reach nothing else after it: a commit appends
to the stream and keeps the record, trap entry rewrites the record and emits nothing. -/
theorem finish_with_fr_out (w : InstrWord) (r : Result) (s : State) (f : FaultRecord) (o : List Word) :
    ∃ emitted, (finish w r s).out = s.out ++ emitted ∧
      finish w r { s with fr := f, out := o } =
        { finish w r s with fr := (finish w r { s with fr := f, out := o }).fr, out := o ++ emitted } ∧
      (((finish w r s).fr = s.fr ∧ (finish w r { s with fr := f, out := o }).fr = f) ∨
        (finish w r { s with fr := f, out := o }).fr = (finish w r s).fr) := by
  rcases r with ⟨next, wb, emit⟩ | e
  · refine ⟨emit.toList, commit_out .., ?_, .inl ⟨commit_fr .., commit_fr ..⟩⟩
    rcases wb with _ | ⟨i, v⟩ <;> rcases emit with _ | x <;> simp [commit, writeReg, outEmit]
  · exact ⟨[], by simp, by simp [raiseException], .inr rfl⟩

/-- Settles O11: the way a step goes and its instruction's result are found without the fault record and the stream. -/
theorem stepIgnoresTheFaultRecordAndTheOutput : Obligations.StepIgnoresTheFaultRecordAndTheOutput := by
  intro s t f o ht
  obtain ⟨hs, he⟩ | ⟨hs, hpc, he⟩ | ⟨hs, w, hw, ⟨x, hd, he⟩ | ⟨i, hd, he⟩⟩ := step_cases s
  · cases he.symm.trans ht
    exact ⟨_, [], step_of_not_running hs, by simp, by simp, .inl ⟨rfl, rfl⟩⟩
  · cases he.symm.trans ht
    exact ⟨_, [], step_of_end hs hpc, by simp, by simp [haltRun], .inl ⟨rfl, rfl⟩⟩
  · cases he.symm.trans ht
    obtain ⟨emitted, h⟩ := finish_with_fr_out w (.raised .illegalInstruction) s f o
    exact ⟨_, emitted, step_of_fetch_illegal hs hw hd, h⟩
  · cases (he.trans (exec_eq i s)).symm.trans ht
    have hres : resultOf i { s with fr := f, out := o } = resultOf i s := resultOf_congr rfl fun _ _ => rfl
    have hstep : step { s with fr := f, out := o } =
        .next (finish (encode i) (resultOf i s) { s with fr := f, out := o }) := by
      rw [stepRunsTheDecodedInstruction { s with fr := f, out := o } w i hs hw hd, exec_eq, hres]
    obtain ⟨emitted, h⟩ := finish_with_fr_out (encode i) (resultOf i s) s f o
    exact ⟨_, emitted, hstep, h⟩

theorem step_with_out {s t : State} (h : step s = .next t) (o : List Word) :
    ∃ emitted, t.out = s.out ++ emitted ∧ step { s with out := o } = .next { t with out := o ++ emitted } := by
  obtain ⟨t2, emitted, ht2, hout, hrest, hfr⟩ := stepIgnoresTheFaultRecordAndTheOutput s t s.fr o h
  have hfr2 : t2.fr = t.fr := by
    obtain ⟨hkept, hkept2⟩ | hsame := hfr
    · exact hkept2.trans hkept.symm
    · exact hsame
  rw [hfr2] at hrest
  exact ⟨emitted, hout, hrest ▸ ht2⟩

/-- What the sink holds before a run stands before the values that the run emits, and reaches nothing else. -/
theorem run_with_out {k : Nat} {s u : State} (h : Host.Core.run Sys2Proof.core k s = .next u) (o : List Word) :
    ∃ emitted, u.out = s.out ++ emitted ∧
      Host.Core.run Sys2Proof.core k { s with out := o } = .next { u with out := o ++ emitted } := by
  induction k generalizing s o with
  | zero =>
    cases h
    exact ⟨[], by simp, by simp [run_zero]⟩
  | succ k ih =>
    obtain ⟨t, ht, hu⟩ := run_succ_inv h
    obtain ⟨now, hout, ht'⟩ := step_with_out ht o
    obtain ⟨later, hlater, hu'⟩ := ih hu (o ++ now)
    refine ⟨now ++ later, ?_, ?_⟩
    · rw [hlater, hout, List.append_assoc]
    · rw [run_succ_of_next ht', hu', List.append_assoc]

/-- A start leaves nothing of the state before it but the program, the label table and the sink's stream. -/
theorem startRun_eq_with_out {s1 s2 : State} (himem : s1.imem = s2.imem) (hlt : s1.lt = s2.lt) :
    startRun s1 = { startRun s2 with out := s1.out } := by
  simp [startRun, clearRegs, himem, hlt]

/-- Settles O41: two starts of one program differ in the sink's stream only. -/
theorem repeatedRunsAgree : Obligations.RepeatedRunsAgree := by
  intro s1 s2 himem hlt k
  obtain ⟨u2, hu2⟩ := exists_run_next k (startRun s2)
  obtain ⟨emitted, hout, hu1⟩ := run_with_out hu2 s1.out
  rw [← startRun_eq_with_out himem hlt] at hu1
  exact ⟨_, u2, emitted, hu1, hu2, rfl, rfl, hout⟩

end Sys2Proof.Machine

/-! PROOFS. Exceptions: an exception's condition holds exactly when it is the result the instruction returns, so the
conditions exclude each other and read the registers and the label table alone; what trap entry records, and that it
keeps all that the condition read (spec/60_exceptions.md R200 to R209). -/

namespace Sys2Proof.Machine

@[simp] theorem faultRecord_word (pc : Nat) (w : InstrWord) (e : Exc) : (faultRecord pc w e).word = w := by
  cases e <;> rfl

@[simp] theorem faultRecord_opc (pc : Nat) (w : InstrWord) (e : Exc) : (faultRecord pc w e).opc = opcField w := by
  cases e <;> rfl

section
variable {i : Instr} {s : State} {w : InstrWord} {e : Exc}

theorem raises_iff_resultOf : Raises s i e ↔ resultOf i s = .raised e := by
  refine ⟨resultOf_of_raises, fun hr => ?_⟩
  have hm := resultOf_meets i s
  rwa [hr] at hm

theorem Raises.unique {e1 e2 : Exc} (h1 : Raises s i e1) (h2 : Raises s i e2) : e1 = e2 :=
  Result.raised.inj ((resultOf_of_raises h1).symm.trans (resultOf_of_raises h2))

theorem exec_of_not_raises (h : ∀ e, ¬ Raises s i e) : ∃ next wb emit, exec i s = .next (commit next wb emit s) := by
  obtain ⟨next, wb, emit, -, ht⟩ | ⟨e, he, -⟩ := exec_next_cases (exec_eq i s)
  · exact ⟨next, wb, emit, (exec_eq i s).trans (congrArg _ ht)⟩
  · exact absurd he (h e)

theorem wordRaises_of_decode_error {x : IllegalWord} (hd : decode w = .error x) :
    wordRaises s w e ↔ e = .illegalInstruction := by
  simp only [wordRaises, hd]

theorem wordRaises_of_decode_ok (hd : decode w = .ok i) : wordRaises s w e ↔ Raises s i e := by
  simp only [wordRaises, hd]

theorem wordRaises_of_regs_lt {t : State} (h : wordRaises s w e) (hregs : t.regs = s.regs) (hlt : t.lt = s.lt) :
    wordRaises t w e := by
  rcases hd : decode w with x | i
  · rwa [wordRaises_of_decode_error hd] at h ⊢
  · rw [wordRaises_of_decode_ok hd, raises_iff_resultOf] at h ⊢
    exact (resultOf_congr hlt fun r _ => readReg_of_regs hregs r).trans h

theorem step_of_wordRaises (hs : s.status = .running) (hw : imemRead s s.pc = some w) (h : wordRaises s w e) :
    step s = .next (raiseException w e s) := by
  rcases hd : decode w with x | i
  · obtain rfl := (wordRaises_of_decode_error hd).1 h
    exact step_of_fetch_illegal hs hw hd
  · rw [stepRunsTheDecodedInstruction s w i hs hw hd, exec_of_raises ((wordRaises_of_decode_ok hd).1 h),
      encode_of_decode hd]

end

theorem step_keeps_runInv {s t : State} (h : s.RunInv) (ht : step s = .next t) : t.RunInv := by
  cases transition_of_step ht with
  | noRun => exact h
  | halt _ hpc => exact ⟨fun _ => hpc, nofun⟩
  | trap _ hw he => exact ⟨nofun, fun _ => ⟨_, _, hw, rfl, wordRaises_of_regs_lt he rfl rfl⟩⟩
  | instr hs => exact ⟨by simp [hs], by simp [hs]⟩

/-- Settles O49: of a step's four ways only the end check and trap entry end a run, and trap entry leaves what the
exception's condition reads. -/
theorem stepKeepsTheRunInvariant : Obligations.StepKeepsTheRunInvariant :=
  fun _ _ h ht => step_keeps_runInv h ht

/-- Settles O30. -/
theorem exceptionExactlyOnItsCondition : Obligations.ExceptionExactlyOnItsCondition := by
  refine ⟨fun _ _ _ => exec_of_raises, fun i s hno => ?_, fun _ _ _ _ => Raises.unique⟩
  obtain ⟨next, wb, emit, he⟩ := exec_of_not_raises hno
  exact ⟨_, he, commit_status .., commit_fr ..⟩

/-- Settles O31: of the ways of a running state's step, trap entry alone ends FAULTED, and the fetched word's exception
leads there. -/
theorem stepFaultsPrecisely : Obligations.StepFaultsPrecisely := by
  intro s t hs ht
  have hraised : ∀ w e, imemRead s s.pc = some w → wordRaises s w e → t = raiseException w e s := by
    intro w e hw he
    cases ht.symm.trans (step_of_wordRaises hs hw he)
    rfl
  refine ⟨⟨fun hf => ?_, fun ⟨w, e, hw, he⟩ => ?_⟩, hraised⟩
  · cases transition_of_step ht with
    | noRun hn => exact absurd hs hn
    | halt => cases hf
    | trap _ hw he => exact ⟨_, _, hw, he⟩
    | instr => cases hs.symm.trans ((commit_status ..).symm.trans hf)
  · rw [hraised w e hw he, raiseException_status]

/-- Settles O29: the common fields are those of every record, and each exception's record is its definition's. -/
theorem trapEntryRecordsAndCommitsNothing : Obligations.TrapEntryRecordsAndCommitsNothing := by
  refine ⟨fun w e s => ⟨?_, ?_, ?_, rfl⟩, fun w s ra rb a b d => ?_, fun _ _ _ => rfl, fun _ _ _ => rfl,
    fun _ _ => rfl⟩
  · rw [raiseException_fr, faultRecord_pc]
  · rw [raiseException_fr, faultRecord_word]
  · rw [raiseException_fr, faultRecord_opc, opcField]
  · cases d <;> rfl

end Sys2Proof.Machine

/-! PROOFS. The host's start: it clears the core and keeps the program, and after a structural failure only the load of a
source that translates gives it back (spec/70_reset_and_hazards.md R240, R243). -/

namespace Sys2Proof.Machine

/-- Settles O38. -/
theorem startClearsTheCore : Obligations.StartClearsTheCore := by
  intro s hs
  have hr : s.status ≠ .running := by rcases hs with h | h | h <;> simp [h]
  exact ⟨startRun s, startCommand_eq_some.2 ⟨hr, rfl⟩, readReg_startRun s, startRun_pc s, startRun_fr s,
    startRun_status s, startRun_imem s, congrArg List.length (startRun_imem s), startRun_lt s⟩

section
variable {c : Config} {y z : System}

/-- The host's test for a run and the start command's own test agree, so a running core has neither (R241). -/
theorem hostMove_start_of_not_failed (h : y.translationFailed = false) :
    hostMove c .start y = (startCommand y.core).map (fun s => { y with core := s }) := by
  by_cases hr : y.core.status = .running
  · simp [hostMove, startCommand, hr]
  · simp [hostMove, h, hr]

theorem translationFailed_of_loadSource {lines : List (List Char)} (hz : hostMove c (.loadSource lines) y = some z) :
    z.translationFailed = true ↔ (translate lines).failure ≠ none := by
  obtain ⟨-, ⟨_, hm, -⟩ | ⟨_, hm, -⟩ | ⟨_, hm, hf, rfl⟩ | ⟨_, _, hm, hf, -, rfl⟩ | ⟨hm, -⟩⟩ := hostMove_cases hz <;>
    cases hm
  · exact iff_of_true rfl hf
  · exact iff_of_false nofun (not_not_intro hf)

theorem image_loaded_of_loadSource {lines : List (List Char)} (hz : hostMove c (.loadSource lines) y = some z)
    (hok : (translate lines).failure = none) :
    z.core.imem = (translationImage (translate lines)).imem ∧ z.core.lt = (translationImage (translate lines)).lt := by
  obtain ⟨-, ⟨_, hm, -⟩ | ⟨_, hm, -⟩ | ⟨_, hm, hf, -⟩ | ⟨_, _, hm, -, hl, rfl⟩ | ⟨hm, -⟩⟩ := hostMove_cases hz <;>
    cases hm
  · exact absurd hok hf
  · obtain ⟨-, rfl⟩ := loadImage_eq_some.1 hl
    exact ⟨rfl, rfl⟩

theorem loadSource_of_translationFailed_ne {m : HostMove} (hz : hostMove c m y = some z)
    (hne : z.translationFailed ≠ y.translationFailed) : ∃ lines, m = .loadSource lines := by
  obtain ⟨-, ⟨_, -, -, rfl⟩ | ⟨_, -, -, rfl⟩ | ⟨lines, rfl, -⟩ | ⟨lines, _, rfl, -⟩ | ⟨-, -, rfl⟩⟩ := hostMove_cases hz
  · exact absurd rfl hne
  · exact absurd rfl hne
  · exact ⟨lines, rfl⟩
  · exact ⟨lines, rfl⟩
  · exact absurd rfl hne

end

/-- Settles O40: only the load of a source writes what the host remembers, and where that ends the memory the source
translated, so its image was loaded. -/
theorem noStartAfterAStructuralFailure : Obligations.NoStartAfterAStructuralFailure := by
  refine ⟨fun _ _ => hostMove_start_of_not_failed, fun c _ => hostMove_start_of_failed c,
    fun _ _ _ _ => translationFailed_of_loadSource, fun c m y z hz hne => ?_, rfl⟩
  obtain ⟨lines, rfl⟩ := loadSource_of_translationFailed_ne hz hne
  refine ⟨lines, rfl, fun hend => ?_⟩
  have hok : (translate lines).failure = none := by
    simpa [hend] using translationFailed_of_loadSource hz
  exact ⟨hok, image_loaded_of_loadSource hz hok⟩

end Sys2Proof.Machine

/-! PROOFS. Outside a run the core keeps its state (spec/43_dispatch_step.md R180). -/

namespace Sys2Proof.Machine

/-- Settles O9: outside RUNNING a step answers the state it was given, so every number of steps does. -/
theorem noRunNoChange : Obligations.NoRunNoChange :=
  fun _ hs k => run_of_step_self (step_of_not_running hs) k

end Sys2Proof.Machine
